-- ==== Sys2Proof/Word.lean ====
section
/-! DEFINITION. The words of the CORE: 8-bit bytes and registers, 16-bit addresses and instruction words (R9, R11). -/

namespace Sys2Proof

/-- A memory byte, a general register, a timer: 8 bits, unsigned (R9, R11). -/
abbrev Byte := BitVec 8

/-- An instruction word, `I`, `PC`, a stack slot: 16 bits (R9). -/
abbrev Word := BitVec 16

/-- A register index, the value of an `X` or `Y` field: 0 is V0, 15 is VF (R40, R103). -/
abbrev Reg := Fin 16

/-- VF, `V[15]`: general register and flag register in one cell (R41). -/
abbrev VF : Reg := 15

end Sys2Proof
end

