-- ==== Sys2Proof/Syntax.lean ====
section
/-! DEFINITION. The syntax of the 34 instructions of the opcode map (R104), one constructor per row. -/

namespace Sys2Proof

/-- The closed set of tagged variants decoding produces (R109). `x`, `y` are register indices, `nn` is the 8-bit
immediate, `nnn` the 12-bit address, `n` the count 0..15 of sprite rows (R101, R103; `WellFormed` bounds `n`). -/
inductive Instr where
  /-- 00E0 `CLS` -/
  | cls
  /-- 00EE `RET` -/
  | ret
  /-- 1NNN `JP nnn` -/
  | jp (nnn : BitVec 12)
  /-- 2NNN `CALL nnn` -/
  | call (nnn : BitVec 12)
  /-- 3XNN `SE Vx, nn` -/
  | seVxNn (x : Reg) (nn : Byte)
  /-- 4XNN `SNE Vx, nn` -/
  | sneVxNn (x : Reg) (nn : Byte)
  /-- 5XY0 `SE Vx, Vy` -/
  | seVxVy (x y : Reg)
  /-- 6XNN `LD Vx, nn` -/
  | ldVxNn (x : Reg) (nn : Byte)
  /-- 7XNN `ADD Vx, nn` -/
  | addVxNn (x : Reg) (nn : Byte)
  /-- 8XY0 `LD Vx, Vy` -/
  | ldVxVy (x y : Reg)
  /-- 8XY1 `OR Vx, Vy` -/
  | orVxVy (x y : Reg)
  /-- 8XY2 `AND Vx, Vy` -/
  | andVxVy (x y : Reg)
  /-- 8XY3 `XOR Vx, Vy` -/
  | xorVxVy (x y : Reg)
  /-- 8XY4 `ADD Vx, Vy` -/
  | addVxVy (x y : Reg)
  /-- 8XY5 `SUB Vx, Vy` -/
  | subVxVy (x y : Reg)
  /-- 8XY6 `SHR Vx, Vy`: `y` is decoded and not used (R102, R169) -/
  | shrVxVy (x y : Reg)
  /-- 8XY7 `SUBN Vx, Vy` -/
  | subnVxVy (x y : Reg)
  /-- 8XYE `SHL Vx, Vy`: `y` is decoded and not used (R102, R171) -/
  | shlVxVy (x y : Reg)
  /-- 9XY0 `SNE Vx, Vy` -/
  | sneVxVy (x y : Reg)
  /-- ANNN `LD I, nnn` -/
  | ldINnn (nnn : BitVec 12)
  /-- BNNN `JP V0, nnn` -/
  | jpV0Nnn (nnn : BitVec 12)
  /-- CXNN `RND Vx, nn` -/
  | rndVxNn (x : Reg) (nn : Byte)
  /-- DXYN `DRW Vx, Vy, n` -/
  | drwVxVyN (x y : Reg) (n : Nat)
  /-- EX9E `SKP Vx` -/
  | skpVx (x : Reg)
  /-- EXA1 `SKNP Vx` -/
  | sknpVx (x : Reg)
  /-- FX07 `LD Vx, DT` -/
  | ldVxDt (x : Reg)
  /-- FX0A `LD Vx, K` -/
  | ldVxK (x : Reg)
  /-- FX15 `LD DT, Vx` -/
  | ldDtVx (x : Reg)
  /-- FX18 `LD ST, Vx` -/
  | ldStVx (x : Reg)
  /-- FX1E `ADD I, Vx` -/
  | addIVx (x : Reg)
  /-- FX29 `LD F, Vx` -/
  | ldFVx (x : Reg)
  /-- FX33 `LD B, Vx` -/
  | ldBVx (x : Reg)
  /-- FX55 `LD [I], Vx` -/
  | ldMemVx (x : Reg)
  /-- FX65 `LD Vx, [I]` -/
  | ldVxMem (x : Reg)
  deriving DecidableEq, Repr

end Sys2Proof
end

