-- ==== Sys2Proof/WellFormed.lean ====
section
/-! DEFINITION. When a term of `Instr` is an instruction of the CORE. The types already bound `X`, `Y` (4 bits), `NN`
(8 bits) and `NNN` (12 bits); the one count, `N`, is checked here (log 17). -/

namespace Sys2Proof

/-- `N` is a 4-bit field: an unsigned count 0..15 (R101, R103). Every other operand is bounded by its type. -/
def Instr.wellFormed : Instr → Bool
  | .drwVxVyN _ _ n => decide (n ≤ 15)
  | .cls | .ret | .jp _ | .call _ | .seVxNn _ _ | .sneVxNn _ _ | .seVxVy _ _ | .ldVxNn _ _ | .addVxNn _ _
  | .ldVxVy _ _ | .orVxVy _ _ | .andVxVy _ _ | .xorVxVy _ _ | .addVxVy _ _ | .subVxVy _ _ | .shrVxVy _ _
  | .subnVxVy _ _ | .shlVxVy _ _ | .sneVxVy _ _ | .ldINnn _ | .jpV0Nnn _ | .rndVxNn _ _ | .skpVx _ | .sknpVx _
  | .ldVxDt _ | .ldVxK _ | .ldDtVx _ | .ldStVx _ | .addIVx _ | .ldFVx _ | .ldBVx _ | .ldMemVx _ | .ldVxMem _ => true

end Sys2Proof
end

