-- ==== Sys2Proof/Decode.lean ====
section
/-! DEFINITION. The decoder, total on words and on bytes, rejecting by name (R100 to R109), and the encoder, written
from the same tables (R101, R102, R104; log 14). -/

namespace Sys2Proof

/-- Why bytes are no instruction. -/
inductive DecodeError where
  /-- fewer than the two bytes every instruction has (R100) -/
  | truncated
  /-- the word matches no row of the opcode map (R106) -/
  | unknownInstruction (op : Word)
  deriving DecidableEq, Repr

/-! ### The fields of an instruction word (R101) -/

/-- The class, `op[15:12]`. -/
def opClass (op : Word) : Nat := op.toNat / 0x1000

/-- `X`, `op[11:8]`. -/
def opX (op : Word) : Reg := ⟨op.toNat / 0x100 % 16, Nat.mod_lt _ (by decide)⟩

/-- `Y`, `op[7:4]`. -/
def opY (op : Word) : Reg := ⟨op.toNat / 0x10 % 16, Nat.mod_lt _ (by decide)⟩

/-- `N`, `op[3:0]`. -/
def opN (op : Word) : Nat := op.toNat % 0x10

/-- `NN`, `op[7:0]`. -/
def opNN (op : Word) : Byte := op.setWidth 8

/-- `NNN`, `op[11:0]`. -/
def opNNN (op : Word) : BitVec 12 := op.setWidth 12

/-- Dispatch on the class and then on the sub-function field (R104); a word no row selects is illegal (R106). -/
def decodeWord (op : Word) : Except DecodeError Instr :=
  match opClass op with
  | 0x0 =>
    match (opNNN op).toNat with
    | 0x0E0 => .ok .cls
    | 0x0EE => .ok .ret
    | _ => .error (.unknownInstruction op)
  | 0x1 => .ok (.jp (opNNN op))
  | 0x2 => .ok (.call (opNNN op))
  | 0x3 => .ok (.seVxNn (opX op) (opNN op))
  | 0x4 => .ok (.sneVxNn (opX op) (opNN op))
  | 0x5 =>
    match opN op with
    | 0x0 => .ok (.seVxVy (opX op) (opY op))
    | _ => .error (.unknownInstruction op)
  | 0x6 => .ok (.ldVxNn (opX op) (opNN op))
  | 0x7 => .ok (.addVxNn (opX op) (opNN op))
  | 0x8 =>
    match opN op with
    | 0x0 => .ok (.ldVxVy (opX op) (opY op))
    | 0x1 => .ok (.orVxVy (opX op) (opY op))
    | 0x2 => .ok (.andVxVy (opX op) (opY op))
    | 0x3 => .ok (.xorVxVy (opX op) (opY op))
    | 0x4 => .ok (.addVxVy (opX op) (opY op))
    | 0x5 => .ok (.subVxVy (opX op) (opY op))
    | 0x6 => .ok (.shrVxVy (opX op) (opY op))
    | 0x7 => .ok (.subnVxVy (opX op) (opY op))
    | 0xE => .ok (.shlVxVy (opX op) (opY op))
    | _ => .error (.unknownInstruction op)
  | 0x9 =>
    match opN op with
    | 0x0 => .ok (.sneVxVy (opX op) (opY op))
    | _ => .error (.unknownInstruction op)
  | 0xA => .ok (.ldINnn (opNNN op))
  | 0xB => .ok (.jpV0Nnn (opNNN op))
  | 0xC => .ok (.rndVxNn (opX op) (opNN op))
  | 0xD => .ok (.drwVxVyN (opX op) (opY op) (opN op))
  | 0xE =>
    match (opNN op).toNat with
    | 0x9E => .ok (.skpVx (opX op))
    | 0xA1 => .ok (.sknpVx (opX op))
    | _ => .error (.unknownInstruction op)
  | 0xF =>
    match (opNN op).toNat with
    | 0x07 => .ok (.ldVxDt (opX op))
    | 0x0A => .ok (.ldVxK (opX op))
    | 0x15 => .ok (.ldDtVx (opX op))
    | 0x18 => .ok (.ldStVx (opX op))
    | 0x1E => .ok (.addIVx (opX op))
    | 0x29 => .ok (.ldFVx (opX op))
    | 0x33 => .ok (.ldBVx (opX op))
    | 0x55 => .ok (.ldMemVx (opX op))
    | 0x65 => .ok (.ldVxMem (opX op))
    | _ => .error (.unknownInstruction op)
  | _ => .error (.unknownInstruction op)

/-- The big-endian word of two bytes, the first at the lower address (R76, R77). -/
def wordOfBytes (hi lo : Byte) : Word := hi ++ lo

/-- The two bytes of a word as they lie in memory, lowest address first (R76, R77). -/
def bytesOfWord (op : Word) : List Byte := [op.extractLsb' 8 8, op.extractLsb' 0 8]

/-- Decoding at the head of a byte sequence: the instruction and the bytes after it. -/
def decode : List Byte → Except DecodeError (Instr × List Byte)
  | hi :: lo :: rest =>
    match decodeWord (wordOfBytes hi lo) with
    | .ok i => .ok (i, rest)
    | .error e => .error e
  | _ => .error .truncated

/-! ### The encoder: the formats of R102 and the rows of R104 -/

/-- Format `NNN`: class[15:12] NNN[11:0]. -/
def fmtNNN (cls : Nat) (nnn : BitVec 12) : Word := BitVec.ofNat 16 (cls * 0x1000 + nnn.toNat)

/-- Format `XNN`: class[15:12] X[11:8] NN[7:0]. -/
def fmtXNN (cls : Nat) (x : Reg) (nn : Byte) : Word := BitVec.ofNat 16 (cls * 0x1000 + x.val * 0x100 + nn.toNat)

/-- Formats `XYF` and `XYN`: class[15:12] X[11:8] Y[7:4] and the low nibble, a sub-function or `N`. -/
def fmtXYN (cls : Nat) (x y : Reg) (n : Nat) : Word :=
  BitVec.ofNat 16 (cls * 0x1000 + x.val * 0x100 + y.val * 0x10 + n % 16)

/-- Format `XF`: class[15:12] X[11:8] func[7:0]. -/
def fmtXF (cls : Nat) (x : Reg) (func : Nat) : Word := BitVec.ofNat 16 (cls * 0x1000 + x.val * 0x100 + func)

/-- The word of an instruction (R104; assembly is the inverse of decoding, R110). -/
def encode : Instr → Word
  | .cls => 0x00E0
  | .ret => 0x00EE
  | .jp nnn => fmtNNN 0x1 nnn
  | .call nnn => fmtNNN 0x2 nnn
  | .seVxNn x nn => fmtXNN 0x3 x nn
  | .sneVxNn x nn => fmtXNN 0x4 x nn
  | .seVxVy x y => fmtXYN 0x5 x y 0x0
  | .ldVxNn x nn => fmtXNN 0x6 x nn
  | .addVxNn x nn => fmtXNN 0x7 x nn
  | .ldVxVy x y => fmtXYN 0x8 x y 0x0
  | .orVxVy x y => fmtXYN 0x8 x y 0x1
  | .andVxVy x y => fmtXYN 0x8 x y 0x2
  | .xorVxVy x y => fmtXYN 0x8 x y 0x3
  | .addVxVy x y => fmtXYN 0x8 x y 0x4
  | .subVxVy x y => fmtXYN 0x8 x y 0x5
  | .shrVxVy x y => fmtXYN 0x8 x y 0x6
  | .subnVxVy x y => fmtXYN 0x8 x y 0x7
  | .shlVxVy x y => fmtXYN 0x8 x y 0xE
  | .sneVxVy x y => fmtXYN 0x9 x y 0x0
  | .ldINnn nnn => fmtNNN 0xA nnn
  | .jpV0Nnn nnn => fmtNNN 0xB nnn
  | .rndVxNn x nn => fmtXNN 0xC x nn
  | .drwVxVyN x y n => fmtXYN 0xD x y n
  | .skpVx x => fmtXF 0xE x 0x9E
  | .sknpVx x => fmtXF 0xE x 0xA1
  | .ldVxDt x => fmtXF 0xF x 0x07
  | .ldVxK x => fmtXF 0xF x 0x0A
  | .ldDtVx x => fmtXF 0xF x 0x15
  | .ldStVx x => fmtXF 0xF x 0x18
  | .addIVx x => fmtXF 0xF x 0x1E
  | .ldFVx x => fmtXF 0xF x 0x29
  | .ldBVx x => fmtXF 0xF x 0x33
  | .ldMemVx x => fmtXF 0xF x 0x55
  | .ldVxMem x => fmtXF 0xF x 0x65

/-- The bytes of an instruction as they lie in memory. -/
def encodeBytes (i : Instr) : List Byte := bytesOfWord (encode i)

/-- The host's question, in the table's bit numbering: bit 0 of `w` is the least significant bit of the one word. -/
def decodeTableWord (nbits w : Nat) : Option Instr :=
  match decode (bytesOfWord (BitVec.ofNat 16 (w % 2 ^ nbits))) with
  | .ok (i, _) => some i
  | .error _ => none

end Sys2Proof
end

