-- ==== Sys2Proof/Config.lean ====
section
/-! DEFINITION. What an implementation of the CORE fixes: the constants of R9, the parameters a model takes as
arguments (`FONT_BASE`, `FONT_DATA`), and the one free value, the random draw. -/

namespace Sys2Proof

/-- `MEM_SIZE`: the addresses are 0x000..0xFFF (R9, R70). -/
abbrev memSize : Nat := 0x1000

/-- `ROM_BASE`: where a program image starts, and the reset value of `PC` (R9, R62, R356). -/
abbrev romBase : Nat := 0x200

/-- `ROM_MAX`: the longest program image, 0x1000 - 0x200 bytes (R9, R357). -/
abbrev romMax : Nat := 3584

/-- The parameters R9 tells a model to take as arguments. They stand in `State.config`, so a statement about every
state holds for every font base and every font (U1, U2, D9). No event changes them. Log 3. -/
structure Config where
  /-- `FONT_BASE`: the address of the glyph of digit 0. -/
  fontBase : Word
  /-- `FONT_DATA`: 16 glyphs of 5 bytes, digit 0 first. -/
  fontData : Vector Byte 80
  deriving DecidableEq, Repr

/-- The font lies in the range R72 reserves for it, 0x000..0x1FF. -/
abbrev Config.wf (c : Config) : Prop := c.fontBase.toNat + 80 ≤ romBase

/-- `RND` of the `n`th free draw: any value 0..255 (R172, D21, U6). It has no body on purpose: a proof can rely on no
value of it and on no relation between two draws. FREE VALUE, log 1. -/
opaque Config.rnd : Nat → Byte

end Sys2Proof
end

