-- ==== Sys2Proof/Machine/Font.lean ====
section
/-! DEFINITION. The font parameters at their default values, and what memory holds after `Reset`. -/

namespace Sys2Proof.Machine

/-- The default `FONT_DATA` of R352: 16 glyphs, 5 bytes each, one byte a row, digit 0 first. The spec marks the bytes
as general knowledge, not in its source (G8): PRESUMED, log 3. -/
def standardFont : Vector Byte 80 :=
  (#v[0xF0, 0x90, 0x90, 0x90, 0xF0,  0x20, 0x60, 0x20, 0x20, 0x70,
      0xF0, 0x10, 0xF0, 0x80, 0xF0,  0xF0, 0x10, 0xF0, 0x10, 0xF0] : Vector Byte 20) ++
  (#v[0x90, 0x90, 0xF0, 0x10, 0x10,  0xF0, 0x80, 0xF0, 0x10, 0xF0,
      0xF0, 0x80, 0xF0, 0x90, 0xF0,  0xF0, 0x10, 0x20, 0x40, 0x40] : Vector Byte 20) ++
  (#v[0xF0, 0x90, 0xF0, 0x90, 0xF0,  0xF0, 0x90, 0xF0, 0x10, 0xF0,
      0xF0, 0x90, 0xF0, 0x90, 0x90,  0xE0, 0x90, 0xE0, 0x90, 0xE0] : Vector Byte 20) ++
  (#v[0xF0, 0x80, 0x80, 0x80, 0xF0,  0xE0, 0x90, 0x90, 0x90, 0xE0,
      0xF0, 0x80, 0xF0, 0x80, 0xF0,  0xF0, 0x80, 0xF0, 0x80, 0x80] : Vector Byte 20)

/-- The default parameters: `FONT_BASE` 0x050 and the font of R352 (R9, D9). -/
def defaultConfig : Config where
  fontBase := 0x050
  fontData := standardFont

/-- `MEM[a]` after `Reset`: `FONT_DATA` at `FONT_BASE .. FONT_BASE+79`, 0 elsewhere (R62, R352). This is what an address
that memory does not list reads as. -/
def resetByte (c : Config) (a : Nat) : Byte :=
  if h : c.fontBase.toNat ≤ a ∧ a < c.fontBase.toNat + 80 then c.fontData[a - c.fontBase.toNat] else 0

end Sys2Proof.Machine
end

