-- ==== Sys2Proof/Machine/State.lean ====
section
/-! DEFINITION. The state of the CORE as plain data, its events, its reset value, and the reasons a step can stop. -/

namespace Sys2Proof.Machine

/-- `STATUS` (R54). -/
inductive Status where
  | running
  /-- suspended by FX0A until a `KeyEvent` (R265) -/
  | waitingForKey
  /-- a fatal error was reached; left only by `Reset` (R308) -/
  | halted
  deriving DecidableEq, Repr

/-- `ERR_KIND` (R59); its 3-bit codes are `ErrKind.code`. -/
inductive ErrKind where
  | none
  | unknownInstruction
  | outOfBounds
  | stackOverflow
  | stackUnderflow
  | romTooLarge
  deriving DecidableEq, Repr

/-- The error latch (R58). -/
structure ErrLatch where
  /-- `ERR_KIND` -/
  kind : ErrKind
  /-- `ERR_PC`: the address of the failing instruction -/
  pc : Word
  /-- `ERR_OPCODE`: the fetched word, 0 when there was none -/
  opcode : Word
  /-- `ERR_ADDR`: the out-of-range address of an `OutOfBounds`, else 0 -/
  addr : BitVec 17
  deriving DecidableEq, Repr

/-- The framebuffer, one 64-bit word a row: bit `x` of row `y` is the pixel `FB[y][x]` (R50; log 13). -/
abbrev Framebuffer := Vector (BitVec 64) 32

/-- Memory: the cells that differ from their contents after `Reset` (`resetByte`), addresses rising (log 4). -/
abbrev Memory := List Host.Cell

/-- What the environment can do to the CORE (R30). A `step` takes `KEYS` from the port `State.keys` and `RND` from
`State.nextRnd`; a change of the port between two events is the event `setKeys` (R30, R52). -/
inductive Event where
  | reset
  | loadRom (bytes : List Byte)
  | step
  | tick
  | keyEvent (k : BitVec 4)
  | setKeys (keys : BitVec 16)
  deriving DecidableEq, Repr

/-- Everything the spec gives the machine (R62), then the parameters of R9, then the model's own fields, which hold what
the environment does next (log 1, log 2). -/
structure State where
  /-- `V[0]`..`V[15]` (R40); `V[15]` is VF (R41) -/
  v : Vector Byte 16
  /-- `I` (R43) -/
  i : Word
  /-- `PC` (R44) -/
  pc : Word
  /-- `SP`, the stack depth 0..16 (R46) -/
  sp : Fin 17
  /-- `STACK[0]`..`STACK[15]` (R46) -/
  stack : Vector Word 16
  /-- `DT`, the delay timer (R48) -/
  dt : Byte
  /-- `ST`, the sound timer (R48) -/
  st : Byte
  /-- `FB` (R50) -/
  fb : Framebuffer
  /-- `STATUS` (R54) -/
  status : Status
  /-- `WAIT_X` (R56) -/
  waitX : Reg
  /-- `ERR_KIND`, `ERR_PC`, `ERR_OPCODE`, `ERR_ADDR` (R58) -/
  err : ErrLatch
  /-- `DREW` (R32) -/
  drew : Bool
  /-- `KEYS`, the keypad input port: bit `k` is key `k`, 1 is pressed (R52) -/
  keys : BitVec 16
  /-- `MEM` (R70) -/
  mem : Memory
  /-- is the boot window open: no `Step`, `Tick` or `LoadRom` yet since `Reset` (R355, R358; log 7) -/
  bootOpen : Bool
  /-- `FONT_BASE` and `FONT_DATA` (R9; log 3) -/
  config : Config
  /-- the environment's coming events, oldest first; when there is none it applies `step` (log 2) -/
  events : List Event
  /-- the draws the environment has ready for CXNN, oldest first (log 1) -/
  rndInputs : List Byte
  /-- how many free draws have been used (log 1) -/
  rndCount : Nat
  deriving DecidableEq, Repr

/-- The error latch with no error (R62). -/
def ErrLatch.clear : ErrLatch where
  kind := .none
  pc := 0
  opcode := 0
  addr := 0

/-- Every state element at its reset value (R62, R350), for given parameters and a given keypad port, which `Reset` does
not change (D20). No event is waiting, no draw is ready and none is used. -/
def State.resetOf (c : Config) (keys : BitVec 16) : State where
  v := Vector.replicate 16 0
  i := 0
  pc := 0x200
  sp := 0
  stack := Vector.replicate 16 0
  dt := 0
  st := 0
  fb := Vector.replicate 32 0
  status := .running
  waitX := 0
  err := ErrLatch.clear
  drew := false
  keys := keys
  mem := []
  bootOpen := true
  config := c
  events := []
  rndInputs := []
  rndCount := 0

/-- The machine right after reset (R62), with the default font parameters (log 3) and, DESIGN CHOICE, no key pressed
(log 5). -/
def State.reset : State := State.resetOf defaultConfig 0

/-- Machine faults: there are none. Every error of the CORE ends in the state `Halted`, which the spec describes, so it
is a next state (R300, R305; log 18). -/
inductive Fault where
  deriving DecidableEq, Repr

/-- What the model refuses. -/
inductive Refusal where
  /-- Raised by `exec` for an instruction that has no meaning yet; safe. -/
  | notModelled (mnemonic : String)
  /-- Raised by the event `loadRom` outside the boot window or a second time in one: "has no meaning in this spec: a
  model refuses it" (R358, D24); safe. -/
  | loadRomOutsideBootWindow
  deriving DecidableEq, Repr

/-- The outcome of an instruction, an event or a step. -/
abbrev Result := Host.Outcome State Fault Refusal

end Sys2Proof.Machine
end

