-- ==== Sys2Proof/Machine/Ops.lean ====
section
/-! DEFINITION. The shared operations: memory, registers, the program counter, the stack, the random draw, the fatal
error and the only way back from one. -/

namespace Sys2Proof.Machine

/-! ### Memory as a list of cells over a background `bg`, what an unlisted address reads as -/

/-- The byte at an address. -/
def Memory.read (bg : Nat → Byte) : Memory → Nat → Byte
  | [], a => bg a
  | (k, b) :: m, a => if a = k then b else Memory.read bg m a

/-- The memory with `b` at `a`, in canonical form: a byte equal to the background is not listed. -/
def Memory.write (bg : Nat → Byte) : Memory → Nat → Byte → Memory
  | [], a, b => if b = bg a then [] else [(a, b)]
  | (k, c) :: m, a, b =>
    if a < k then (if b = bg a then (k, c) :: m else (a, b) :: (k, c) :: m)
    else if a = k then (if b = bg a then m else (a, b) :: m)
    else (k, c) :: Memory.write bg m a b

/-- `bytes` at `a`, `a + 1`, … . The addresses are distinct, so the order of the writes cannot be observed (R13); the
last byte is placed first (log 20). -/
def Memory.store (bg : Nat → Byte) (m : Memory) : Nat → List Byte → Memory
  | _, [] => m
  | a, b :: bs => Memory.write bg (Memory.store bg m (a + 1) bs) a b

/-- The canonical form: addresses strictly rising and in 0x000..0xFFF (R70), no cell equal to the background. -/
def Memory.wf (bg : Nat → Byte) (m : Memory) : Bool :=
  decide (m.Pairwise fun c d => c.1 < d.1) && m.all fun c => decide (c.1 < memSize) && decide (c.2 ≠ bg c.1)

/-- `MEM[a]` (R70). -/
def State.readByte (s : State) (a : Nat) : Byte := Memory.read (resetByte s.config) s.mem a

/-- `MEM[a]` .. `MEM[a+n-1]`, lowest address first. -/
def State.readBytes (s : State) (a : Nat) : Nat → List Byte
  | 0 => []
  | n + 1 => s.readByte a :: State.readBytes s (a + 1) n

/-- Stores `bytes` at `a`, `a + 1`, … . -/
def State.storeBytes (s : State) (a : Nat) (bytes : List Byte) : State :=
  { s with mem := Memory.store (resetByte s.config) s.mem a bytes }

/-- Memory is in canonical form. -/
abbrev State.memOk (s : State) : Prop := Memory.wf (resetByte s.config) s.mem = true

/-- The address decoder on an access to the `n` bytes at `a`, `a + 1`, … (R73, R74): the lowest address above 0xFFF
among them, if there is one. Addresses are exact; nothing wraps. -/
def firstOutOfRange (a n : Nat) : Option Nat :=
  if n = 0 ∨ a + n ≤ memSize then none else some (max a memSize)

/-! ### Registers and the program counter -/

/-- `V[x]` (R40). -/
def State.reg (s : State) (x : Reg) : Byte := s.v[x]

/-- `V[x] <- b` (R40; for x = 15 this is VF, R41). -/
def State.setReg (s : State) (x : Reg) (b : Byte) : State := { s with v := s.v.set x b }

/-- `PC <- target`. -/
def State.jump (s : State) (target : Word) : State := { s with pc := target }

/-- The default `next_pc`, `PC + 2` (R130; log 12). -/
def State.advance (s : State) : State := s.jump (s.pc + 2)

/-- A skip: `PC + 4` if the condition holds, else `PC + 2` (R137). -/
def State.skipIf (s : State) (cond : Bool) : State := s.jump (if cond then s.pc + 4 else s.pc + 2)

/-! ### The stack (R46): none when the depth forbids it -/

/-- `Push(v)`: none is `StackOverflow`. -/
def State.push (s : State) (v : Word) : Option State :=
  if h : s.sp.val < 16 then
    some { s with stack := s.stack.set s.sp.val v, sp := ⟨s.sp.val + 1, by omega⟩ }
  else none

/-- `Pop()`: the popped address and the state after it; none is `StackUnderflow`. The slot keeps its content (R47;
log 11). -/
def State.pop (s : State) : Option (Word × State) :=
  if h : 0 < s.sp.val then
    some (s.stack[s.sp.val - 1], { s with sp := ⟨s.sp.val - 1, by omega⟩ })
  else none

/-! ### The random draw (R172, D21; log 1) -/

/-- The draw the next CXNN uses: the environment's next one, or, when it has none ready, a free value. -/
def State.nextRnd (s : State) : Byte :=
  match s.rndInputs with
  | [] => Config.rnd s.rndCount
  | d :: _ => d

/-- The state in which that draw is used up. -/
def State.dropRnd (s : State) : State :=
  match s.rndInputs with
  | [] => { s with rndCount := s.rndCount + 1 }
  | _ :: ds => { s with rndInputs := ds }

/-! ### The fatal error and the way back from it -/

/-- `raise E(info)` (R305), on the state before the failing instruction, so that none of its writes happen (R15): `Halted`
and the latch, with `op` the fetched word (or 0) and `addr` the offending address (or 0). `PC` stays. `DREW` is 0 (log 6). -/
def State.raise (s : State) (kind : ErrKind) (op : Word) (addr : Nat) : State :=
  { s with
    status := .halted
    err := { kind := kind, pc := s.pc, opcode := op, addr := BitVec.ofNat 17 addr }
    drew := false }

/-- There is no return from a fatal error but `Reset` (R308), which puts every state element to its reset value (R350).
It keeps the input port `KEYS` (D20), the parameters, and what the environment does next (log 16). -/
def State.afterReset (s : State) : State :=
  { State.resetOf s.config s.keys with events := s.events, rndInputs := s.rndInputs, rndCount := s.rndCount }

/-- An instruction's access to the `n` bytes at `a`: `OutOfBounds` with the lowest bad address before anything is read or
written (R74, R302), else `ok`. `i` is the instruction, whose word the latch records (log 8). -/
def State.access (s : State) (i : Instr) (a n : Nat) (ok : State) : Result :=
  match firstOutOfRange a n with
  | some bad => .next (s.raise .outOfBounds (encode i) bad)
  | none => .next ok

end Sys2Proof.Machine
end

