-- ==== Sys2Proof/Machine/Operands.lean ====
section
/-! DEFINITION. The operand forms of the instructions beyond a plain register or immediate. -/

namespace Sys2Proof.Machine

/-- `zext_16(NNN)` (R103). -/
def zext16 (nnn : BitVec 12) : Word := nnn.setWidth 16

/-- `v[3:0]`, the hex digit or key a register names (R202, R260). -/
def lowNibble (b : Byte) : BitVec 4 := b.setWidth 4

/-- `KEYS[V[x][3:0]]`, sampled at this step (R53, R260). -/
def State.keyPressed (s : State) (x : Reg) : Bool := s.keys.getLsbD (lowNibble (s.reg x)).toNat

/-- The address of the glyph of the digit `V[x][3:0]`: `FONT_BASE + 5 * digit` (R202). -/
def State.glyphAddress (s : State) (x : Reg) : Word :=
  s.config.fontBase + 5 * (lowNibble (s.reg x)).setWidth 16

/-- The decimal digits of a byte, hundreds first (R203, D34). -/
def bcdDigits (b : Byte) : List Byte :=
  [BitVec.ofNat 8 (b.toNat / 100), BitVec.ofNat 8 (b.toNat / 10 % 10), BitVec.ofNat 8 (b.toNat % 10)]

/-- `V[0]` .. `V[x]` (R204). -/
def State.regsUpTo (s : State) (x : Reg) : List Byte := s.v.toList.take (x.val + 1)

/-- The register file with `V[k] <- MEM[I + k]` for `k` in 0 .. x (R205). -/
def State.loadRegs (s : State) (x : Reg) : Vector Byte 16 :=
  Vector.ofFn fun k : Reg => if k ≤ x then s.readByte (s.i.toNat + k.val) else s.reg k

end Sys2Proof.Machine
end

