-- ==== Sys2Proof/Machine/ControlFlow.lean ====
section
/-! DEFINITION. Control transfer (40_control_flow.md). -/

namespace Sys2Proof.Machine

/-- 1NNN `JP nnn` (R135). -/
def execJp (nnn : BitVec 12) (s : State) : Result := .next (s.jump (zext16 nnn))

/-- 2NNN `CALL nnn` (R133): pushes the address after the call (D38). -/
def execCall (nnn : BitVec 12) (s : State) : Result :=
  match s.push (s.pc + 2) with
  | none => .next (s.raise .stackOverflow (encode (.call nnn)) 0)
  | some t => .next (t.jump (zext16 nnn))

/-- 00EE `RET` (R134). -/
def execRet (s : State) : Result :=
  match s.pop with
  | none => .next (s.raise .stackUnderflow (encode .ret) 0)
  | some (target, t) => .next (t.jump target)

/-- BNNN `JP V0, nnn` (R136). -/
def execJpV0 (nnn : BitVec 12) (s : State) : Result := .next (s.jump (zext16 nnn + (s.reg 0).setWidth 16))

/-- 3XNN `SE Vx, nn` (R138). -/
def execSeVxNn (x : Reg) (nn : Byte) (s : State) : Result := .next (s.skipIf (s.reg x == nn))

/-- 4XNN `SNE Vx, nn` (R139). -/
def execSneVxNn (x : Reg) (nn : Byte) (s : State) : Result := .next (s.skipIf (s.reg x != nn))

/-- 5XY0 `SE Vx, Vy` (R140). -/
def execSeVxVy (x y : Reg) (s : State) : Result := .next (s.skipIf (s.reg x == s.reg y))

/-- 9XY0 `SNE Vx, Vy` (R141). -/
def execSneVxVy (x y : Reg) (s : State) : Result := .next (s.skipIf (s.reg x != s.reg y))

end Sys2Proof.Machine
end

