-- ==== Sys2Proof/Machine/Flags.lean ====
section
/-! DEFINITION. The values VF takes as a flag (R160, R173) and the order in which result and flag are written (R14, D4). -/

namespace Sys2Proof.Machine

/-- A flag is written as 0 or 1 (R41). -/
def flag (b : Bool) : Byte := if b then 1 else 0

/-- The carry of `a + b`: the exact sum exceeds 255 (R160, R167). -/
def carry (a b : Byte) : Bool := decide (a.toNat + b.toNat > 255)

/-- No borrow in `a - b`: the minuend is not below the subtrahend (R160, R168, R170). -/
def noBorrow (a b : Byte) : Bool := decide (a.toNat ≥ b.toNat)

/-- The bit a right shift moves out, `a[0]` (R169). -/
def shiftedOutRight (a : Byte) : Bool := a.getLsbD 0

/-- The bit a left shift moves out, `a[7]` (R171). -/
def shiftedOutLeft (a : Byte) : Bool := a.getLsbD 7

/-- `V[x] <- r`, then `VF <- f`: the flag is written last, so for x = 15 it is what remains (D4). -/
def State.setWithFlag (s : State) (x : Reg) (r : Byte) (f : Bool) : State := (s.setReg x r).setReg VF (flag f)

end Sys2Proof.Machine
end

