-- ==== Sys2Proof/Machine/Display.lean ====
section
/-! DEFINITION. The framebuffer and drawing (43_display.md). -/

namespace Sys2Proof.Machine

/-- `FB[y][x]` (R50). -/
def Framebuffer.pixel (fb : Framebuffer) (y : Fin 32) (x : Fin 64) : Bool := fb[y].getLsbD x.val

/-- `FB[y][x] <- FB[y][x] ^ 1`. -/
def Framebuffer.toggle (fb : Framebuffer) (y : Fin 32) (x : Fin 64) : Framebuffer :=
  fb.set y (fb[y] ^^^ BitVec.twoPow 64 x.val)

/-- All pixels off. -/
def Framebuffer.blank : Framebuffer := Vector.replicate 32 0

/-- A framebuffer being drawn on, and whether a pixel has been turned off so far (the `collision` of R233). -/
structure Canvas where
  fb : Framebuffer
  collision : Bool
  deriving DecidableEq, Repr

/-- One sprite bit of 1 at row `r`, column `c` of a sprite at (`x0`, `y0`): it toggles the cell of R231, each coordinate
wrapping on its own (D12); it collides if that cell was on (R234). -/
def Canvas.plot (x0 y0 r c : Nat) (w : Canvas) : Canvas :=
  let x := Fin.ofNat 64 (x0 + c)
  let y := Fin.ofNat 32 (y0 + r)
  { fb := w.fb.toggle y x, collision := w.collision || w.fb.pixel y x }

/-- Columns `c`, `c + 1`, .. 7 of one row: column `c` is bit `7 - c`, the most significant bit leftmost (R232, D13); a bit
of 0 leaves its cell. `fuel` counts the columns left. -/
def Canvas.drawRow (x0 y0 r : Nat) (row : Byte) : Nat → Canvas → Canvas
  | 0, w => w
  | fuel + 1, w =>
    let c := 7 - fuel
    Canvas.drawRow x0 y0 r row fuel (if row.getLsbD (7 - c) then w.plot x0 y0 r c else w)

/-- The rows of a sprite from row `r` on (the loop of R233). -/
def Canvas.drawRows (x0 y0 : Nat) : Nat → List Byte → Canvas → Canvas
  | _, [], w => w
  | r, row :: rows, w => Canvas.drawRows x0 y0 (r + 1) rows (w.drawRow x0 y0 r row 8)

/-- 00E0 `CLS` (R230). -/
def execCls (s : State) : Result := .next { s with fb := Framebuffer.blank, drew := true }.advance

/-- DXYN `DRW Vx, Vy, n` (R233): the coordinates are read before VF is written; VF is the collision, written last; `N` = 0
reads no memory and cannot fail (R236, D11). -/
def execDrwVxVyN (x y : Reg) (n : Nat) (s : State) : Result :=
  let w := Canvas.drawRows (s.reg x).toNat (s.reg y).toNat 0 (s.readBytes s.i.toNat n) { fb := s.fb, collision := false }
  s.access (.drwVxVyN x y n) s.i.toNat n
    ({ s with fb := w.fb, drew := true }.setReg VF (flag w.collision)).advance

end Sys2Proof.Machine
end

