-- ==== Sys2Proof/Machine/IndexMemory.lean ====
section
/-! DEFINITION. The index register and the memory transfers (42_index_memory.md). -/

namespace Sys2Proof.Machine

/-- ANNN `LD I, nnn` (R200). -/
def execLdINnn (nnn : BitVec 12) (s : State) : Result := .next { s with i := zext16 nnn }.advance

/-- FX1E `ADD I, Vx`: the sum is kept in 16 bits, VF is not written (R201, D7). -/
def execAddIVx (x : Reg) (s : State) : Result := .next { s with i := s.i + (s.reg x).setWidth 16 }.advance

/-- FX29 `LD F, Vx` (R202, D8). -/
def execLdFVx (x : Reg) (s : State) : Result := .next { s with i := s.glyphAddress x }.advance

/-- FX33 `LD B, Vx` (R203, D34). -/
def execLdBVx (x : Reg) (s : State) : Result :=
  s.access (.ldBVx x) s.i.toNat 3 (s.storeBytes s.i.toNat (bcdDigits (s.reg x))).advance

/-- FX55 `LD [I], Vx`: `I` is not changed (R204, D6). -/
def execLdMemVx (x : Reg) (s : State) : Result :=
  s.access (.ldMemVx x) s.i.toNat (x.val + 1) (s.storeBytes s.i.toNat (s.regsUpTo x)).advance

/-- FX65 `LD Vx, [I]`: `I` is not changed (R205, D6). -/
def execLdVxMem (x : Reg) (s : State) : Result :=
  s.access (.ldVxMem x) s.i.toNat (x.val + 1) { s with v := s.loadRegs x }.advance

end Sys2Proof.Machine
end

