-- ==== Sys2Proof/Machine/KeypadTimer.lean ====
section
/-! DEFINITION. The keypad and timer instructions (44_keypad_timer.md). -/

namespace Sys2Proof.Machine

/-- EX9E `SKP Vx` (R261). -/
def execSkpVx (x : Reg) (s : State) : Result := .next (s.skipIf (s.keyPressed x))

/-- EXA1 `SKNP Vx` (R262). -/
def execSknpVx (x : Reg) (s : State) : Result := .next (s.skipIf (!s.keyPressed x))

/-- FX0A `LD Vx, K`: suspends the core and leaves `PC` on itself; a key held in `KEYS` does not end the wait (R265, D19). -/
def execLdVxK (x : Reg) (s : State) : Result := .next { s with waitX := x, status := .waitingForKey }

/-- FX07 `LD Vx, DT` (R270). -/
def execLdVxDt (x : Reg) (s : State) : Result := .next (s.setReg x s.dt).advance

/-- FX15 `LD DT, Vx` (R271). -/
def execLdDtVx (x : Reg) (s : State) : Result := .next { s with dt := s.reg x }.advance

/-- FX18 `LD ST, Vx` (R272). -/
def execLdStVx (x : Reg) (s : State) : Result := .next { s with st := s.reg x }.advance

end Sys2Proof.Machine
end

