-- ==== Sys2Proof/Machine/LoadAlu.lean ====
section
/-! DEFINITION. Register loads and the ALU (41_load_alu.md): 8-bit unsigned, wrapping (R160). -/

namespace Sys2Proof.Machine

/-- 6XNN `LD Vx, nn` (R161). -/
def execLdVxNn (x : Reg) (nn : Byte) (s : State) : Result := .next (s.setReg x nn).advance

/-- 7XNN `ADD Vx, nn`: wraps, writes no flag (R162). -/
def execAddVxNn (x : Reg) (nn : Byte) (s : State) : Result := .next (s.setReg x (s.reg x + nn)).advance

/-- 8XY0 `LD Vx, Vy` (R163). -/
def execLdVxVy (x y : Reg) (s : State) : Result := .next (s.setReg x (s.reg y)).advance

/-- 8XY1 `OR Vx, Vy`: VF is not reset (R164, D5). -/
def execOrVxVy (x y : Reg) (s : State) : Result := .next (s.setReg x (s.reg x ||| s.reg y)).advance

/-- 8XY2 `AND Vx, Vy` (R165, D5). -/
def execAndVxVy (x y : Reg) (s : State) : Result := .next (s.setReg x (s.reg x &&& s.reg y)).advance

/-- 8XY3 `XOR Vx, Vy` (R166, D5). -/
def execXorVxVy (x y : Reg) (s : State) : Result := .next (s.setReg x (s.reg x ^^^ s.reg y)).advance

/-- 8XY4 `ADD Vx, Vy` (R167). -/
def execAddVxVy (x y : Reg) (s : State) : Result :=
  .next (s.setWithFlag x (s.reg x + s.reg y) (carry (s.reg x) (s.reg y))).advance

/-- 8XY5 `SUB Vx, Vy` (R168). -/
def execSubVxVy (x y : Reg) (s : State) : Result :=
  .next (s.setWithFlag x (s.reg x - s.reg y) (noBorrow (s.reg x) (s.reg y))).advance

/-- 8XY6 `SHR Vx`: shifts `V[x]` in place; the `Y` field is not used (R169, D3). -/
def execShrVxVy (x _y : Reg) (s : State) : Result :=
  .next (s.setWithFlag x (s.reg x >>> 1) (shiftedOutRight (s.reg x))).advance

/-- 8XY7 `SUBN Vx, Vy` (R170). -/
def execSubnVxVy (x y : Reg) (s : State) : Result :=
  .next (s.setWithFlag x (s.reg y - s.reg x) (noBorrow (s.reg y) (s.reg x))).advance

/-- 8XYE `SHL Vx`: shifts `V[x]` in place; the `Y` field is not used (R171, D3). -/
def execShlVxVy (x _y : Reg) (s : State) : Result :=
  .next (s.setWithFlag x (s.reg x <<< 1) (shiftedOutLeft (s.reg x))).advance

/-- CXNN `RND Vx, nn`: one fresh draw for each CXNN executed (R172; log 1). -/
def execRndVxNn (x : Reg) (nn : Byte) (s : State) : Result :=
  .next (s.dropRnd.setReg x (s.nextRnd &&& nn)).advance

end Sys2Proof.Machine
end

