-- ==== Sys2Proof/Machine/Cycle.lean ====
section
/-! DEFINITION. The `Step` event: fetch, decode, execute (40_control_flow.md section 1). -/

namespace Sys2Proof.Machine

/-- The instruction word at `PC`, big-endian (R76). -/
def State.fetchedWord (s : State) : Word := wordOfBytes (s.readByte s.pc.toNat) (s.readByte (s.pc.toNat + 1))

/-- `Fetch()` (R76): the word, or the address out of range, `PC` or `PC + 1`. An odd `PC` fetches like any other (R78). -/
def State.fetch (s : State) : Except Nat Word :=
  match firstOutOfRange s.pc.toNat 2 with
  | some bad => .error bad
  | none => .ok s.fetchedWord

/-- What every `Step` does first: `DREW <- 0` (R130, R131); a `Step` also ends the boot window (R355). -/
def State.beginStep (s : State) : State := { s with drew := false, bootOpen := false }

/-- One CPU cycle (R130), errors in the order fetch, decode, instruction (R306). -/
def cycle (s : State) : Result :=
  match s.fetch with
  | .error bad => .next (s.raise .outOfBounds 0 bad)
  | .ok op =>
    match decodeWord op with
    | .error _ => .next (s.raise .unknownInstruction op 0)
    | .ok i => exec i s

/-- The `Step` event: a cycle when `Running`, nothing but `DREW <- 0` when waiting or halted (R130, R131). -/
def stepEvent (s : State) : Result :=
  match s.status with
  | .running => cycle s.beginStep
  | .waitingForKey => .next s.beginStep
  | .halted => .next s.beginStep

end Sys2Proof.Machine
end

