-- ==== Sys2Proof/Machine/Events.lean ====
section
/-! DEFINITION. The events of R30. -/

namespace Sys2Proof.Machine

/-- A timer after one `Tick`: one less, never below 0 (R280). -/
def countDown (t : Byte) : Byte := if t = 0 then 0 else t - 1

/-- `Tick` (R280), in every `STATUS` (R281). It ends the boot window (R355). -/
def tickEvent (s : State) : State := { s with dt := countDown s.dt, st := countDown s.st, bootOpen := false }

/-- `KeyEvent(k)`: completes an FX0A (R266); in any other `STATUS` it changes nothing (R267). -/
def keyEvent (k : BitVec 4) (s : State) : State :=
  match s.status with
  | .waitingForKey => { (s.setReg s.waitX (k.setWidth 8)).advance with status := .running }
  | .running => s
  | .halted => s

/-- `LoadRom(bytes)`: the copy to 0x200 (R356), the failure of a too large image (R357), the refusal outside the boot
window (R358). Either use ends the window for another `LoadRom` (R355, R358). -/
def loadRomEvent (bytes : List Byte) (s : State) : Result :=
  if s.bootOpen then
    if bytes.length ≤ romMax then .next { s.storeBytes romBase bytes with bootOpen := false }
    else
      .next { s with
        status := .halted
        err := { kind := .romTooLarge, pc := 0x200, opcode := 0, addr := 0 }
        bootOpen := false }
  else .refused .loadRomOutsideBootWindow

/-- One event of the environment, applied to the whole state (R30). -/
def applyEvent (e : Event) (s : State) : Result :=
  match e with
  | .reset => .next s.afterReset
  | .loadRom bytes => loadRomEvent bytes s
  | .step => stepEvent s
  | .tick => .next (tickEvent s)
  | .keyEvent k => .next (keyEvent k s)
  | .setKeys keys => .next { s with keys := keys }

/-- The events one after the other, each on the state the previous one left (R31). -/
def applyEvents : List Event → State → Result
  | [], s => .next s
  | e :: es, s =>
    match applyEvent e s with
    | .next t => applyEvents es t
    | .fault f => .fault f
    | .refused r => .refused r

/-- What the environment does next: its oldest waiting event, else a `Step` (log 2). -/
def nextEvent (s : State) : Result :=
  match s.events with
  | [] => applyEvent .step s
  | e :: es => applyEvent e { s with events := es }

end Sys2Proof.Machine
end

