-- ==== Sys2Proof/Machine/Outputs.lean ====
section
/-! DEFINITION. The outputs of the CORE, functions of the state after the last event (R32). -/

namespace Sys2Proof.Machine

/-- The code of an error (R59). -/
def ErrKind.code : ErrKind → BitVec 3
  | .none => 0
  | .unknownInstruction => 1
  | .outOfBounds => 2
  | .stackOverflow => 3
  | .stackUnderflow => 4
  | .romTooLarge => 5

/-- The code of a status (R32, D33). -/
def Status.code : Status → BitVec 2
  | .running => 0
  | .waitingForKey => 1
  | .halted => 2

/-- `FB_OUT`: the pixel at column `x`, row `y` (R32). -/
def State.fbOut (s : State) (y : Fin 32) (x : Fin 64) : Bool := s.fb.pixel y x

/-- `SOUND_ACTIVE` (R49). -/
def State.soundActive (s : State) : Bool := s.st != 0

/-- `STATUS_OUT` (R32). -/
def State.statusOut (s : State) : BitVec 2 := s.status.code

/-- `ERR_OUT` (R32): `ERR_KIND`, `ERR_PC`, `ERR_OPCODE`, `ERR_ADDR`. -/
def State.errOut (s : State) : BitVec 3 × Word × Word × BitVec 17 :=
  (s.err.kind.code, s.err.pc, s.err.opcode, s.err.addr)

/-- `DREW` (R32). -/
def State.drewOut (s : State) : Bool := s.drew

end Sys2Proof.Machine
end

