-- ==== Sys2Proof/Machine/Step.lean ====
section
/-! DEFINITION. One step of the machine: the environment's next event (R30, R31; log 2). -/

namespace Sys2Proof.Machine

/-- One event: the oldest one waiting in `events`, or a `Step`. -/
def step (s : State) : Host.Outcome State Fault Refusal := nextEvent s

/-- The state whose next step fetches and runs the instruction with the bits of `w` (the table's numbering): its two bytes
lie at `PC`, the core is `Running` and no event comes before the `Step`. Where no instruction can be fetched at `PC`
(above 0xFFE, R76) `PC` is put at 0x200 first. Log 10. -/
def State.withFetchWord (s : State) (nbits w : Nat) : State :=
  let pc : Word := if s.pc.toNat + 2 ≤ memSize then s.pc else 0x200
  { s.storeBytes pc.toNat (bytesOfWord (BitVec.ofNat 16 (w % 2 ^ nbits))) with
    pc := pc, status := .running, events := [] }

end Sys2Proof.Machine
end

