-- ==== Sys2Proof/Safety.lean ====
section
/-! DEFINITION. What counts as a safe run, the invariant every step keeps, and the relations statements use. -/

namespace Sys2Proof.Machine

/-- No fatal error has been reached (R54, R300). -/
abbrev State.safe (s : State) : Prop := s.status ≠ .halted

/-- A `Step` changes nothing: the end of a run as R371 lets a model define it, outside the CORE. -/
def State.quiet (s : State) : Prop := stepEvent s = .next s

/-- What holds of the machine after `Reset` and after every event. -/
structure State.Inv (s : State) : Prop where
  /-- memory is in canonical form (log 4) -/
  memOk : s.memOk
  /-- no instruction produces a `PC` above 0x10FE (R45) -/
  pcBound : s.pc.toNat ≤ 0x10FE
  /-- a return address is at most 0x1000 (R133: a call at 0xFFE pushes 0x1000) -/
  stackBound : ∀ k : Fin 16, (s.stack[k]).toNat ≤ 0x1000
  /-- the FX0A the core waits in was fetched (R266) -/
  waitFetched : s.status = .waitingForKey → s.pc.toNat ≤ 0xFFE
  /-- the latch holds an error exactly in `Halted` (R58, R305, R357) -/
  latchIffHalted : s.status = .halted ↔ s.err.kind ≠ .none
  /-- without an error every field of the latch is at its reset value (R58, R62) -/
  latchClear : s.err.kind = .none → s.err = ErrLatch.clear
  /-- `PC` stays at the failing instruction (R305, R357) -/
  latchPc : s.status = .halted → s.err.pc = s.pc
  /-- `ERR_ADDR` is out of range for an `OutOfBounds` and 0 otherwise (R58) -/
  latchAddr : if s.err.kind = .outOfBounds then 0x1000 ≤ s.err.addr.toNat else s.err.addr = 0
  /-- in the boot window the machine is as `Reset` left it (R355) -/
  bootIsReset : s.bootOpen = true → s = s.afterReset

/-! ### The layouts of R102, written as bits side by side, bit 15 left -/

/-- class[15:12] NNN[11:0] -/
def layoutNNN (cls : BitVec 4) (nnn : BitVec 12) : Word := cls ++ nnn

/-- class[15:12] X[11:8] NN[7:0], and class[15:12] X[11:8] func[7:0] -/
def layoutXNN (cls : BitVec 4) (x : Reg) (nn : Byte) : Word := cls ++ BitVec.ofNat 4 x.val ++ nn

/-- class[15:12] X[11:8] Y[7:4] N[3:0], and the same with func[3:0] -/
def layoutXYN (cls : BitVec 4) (x y : Reg) (n : BitVec 4) : Word :=
  cls ++ BitVec.ofNat 4 x.val ++ BitVec.ofNat 4 y.val ++ n

/-! ### Relations between the state before and the state after -/

/-- Every byte of memory reads as before. -/
def SameMemory (s t : State) : Prop := ∀ a, t.readByte a = s.readByte a

/-- `PC` advances by 2, only registers of `rs` may differ, and nothing else of the state does. -/
def OnlyRegs (rs : List Reg) (s t : State) : Prop :=
  t.pc = s.pc + 2 ∧ (∀ r, r ∉ rs → t.reg r = s.reg r) ∧ SameMemory s t ∧ t = { s with v := t.v, pc := t.pc }

/-- The outcome is the fatal error `kind` (R305): `Halted`, the latch with `PC`, `op` and `addr`, and nothing else of `s`
changed but `DREW`, of which nothing is said here (log 6). -/
def Halts (o : Result) (s : State) (kind : ErrKind) (op : Word) (addr : Nat) : Prop :=
  ∃ t, o = .next t ∧ t.status = .halted ∧ t.err.kind = kind ∧ t.err.pc = s.pc ∧ t.err.opcode = op ∧
    t.err.addr.toNat = addr ∧ SameMemory s t ∧
    t = { s with status := t.status, err := t.err, drew := t.drew }

/-- A `Step` from `s` fetches and decodes the instruction `i` (R76, R130). -/
def State.Executes (s : State) (i : Instr) : Prop :=
  s.status = .running ∧ s.pc.toNat ≤ 0xFFE ∧
    decodeWord (s.readByte s.pc.toNat ++ s.readByte (s.pc.toNat + 1)) = .ok i

/-- Two states that differ only in stack slots at or above the depth, which no instruction can read (R47). -/
structure SameButStale (s t : State) : Prop where
  rest : t = { s with stack := t.stack }
  live : ∀ k : Fin 16, k.val < s.sp.val → s.stack[k] = t.stack[k]

/-- The sprite bit that falls on the cell at column `x`, row `y` when the `n` rows at `I` are drawn at (`x0`, `y0`): row
`(y - y0) mod 32`, column `(x - x0) mod 64`, if the sprite has them (R231, R232). -/
def spriteBit (s : State) (x0 y0 n : Nat) (y : Fin 32) (x : Fin 64) : Bool :=
  let r := (y.val + 32 - y0 % 32) % 32
  let c := (x.val + 64 - x0 % 64) % 64
  decide (r < n) && decide (c < 8) && (s.readByte (s.i.toNat + r)).getLsbD (7 - c)

/-- The registers an instruction may write when it executes (R42). FX0A writes none: `V[X]` is written when the key
arrives (R265, R266). -/
def MayWrite : Instr → Reg → Prop
  | .ldVxNn x _, r | .addVxNn x _, r | .ldVxVy x _, r | .orVxVy x _, r | .andVxVy x _, r | .xorVxVy x _, r
  | .rndVxNn x _, r | .ldVxDt x, r => r = x
  | .addVxVy x _, r | .subVxVy x _, r | .shrVxVy x _, r | .subnVxVy x _, r | .shlVxVy x _, r => r = x ∨ r = VF
  | .drwVxVyN _ _ _, r => r = VF
  | .ldVxMem x, r => r ≤ x
  | .cls, _ | .ret, _ | .jp _, _ | .call _, _ | .seVxNn _ _, _ | .sneVxNn _ _, _ | .seVxVy _ _, _ | .sneVxVy _ _, _
  | .ldINnn _, _ | .jpV0Nnn _, _ | .skpVx _, _ | .sknpVx _, _ | .ldVxK _, _ | .ldDtVx _, _ | .ldStVx _, _
  | .addIVx _, _ | .ldFVx _, _ | .ldBVx _, _ | .ldMemVx _, _ => False

end Sys2Proof.Machine
end

