-- ==== Sys2Proof/Certificates/Slice0/Obligations.lean ====
section
/-! DEFINITION. The statements for the provers. A statement "at `s`" says what `exec` answers at every state `s` that
meets its hypotheses; `{ s with … }` on the right says that nothing else of the state changes. -/

open Sys2Proof Sys2Proof.Machine

/-! ### Encoding (30_encoding.md) -/

/-- Words written out in the spec (95_test_vectors.md) decode to what they stand for. Several patterns are general
knowledge by the spec's own mark (G2; log 14). -/
def Obligations.SpecWordsDecode : Prop :=
  decodeWord 0x6A05 = .ok (.ldVxNn 0xA 0x05) ∧ decodeWord 0x7A03 = .ok (.addVxNn 0xA 0x03) ∧
  decodeWord 0x00EE = .ok .ret ∧ decodeWord 0xA200 = .ok (.ldINnn 0x200) ∧
  decodeWord 0xD125 = .ok (.drwVxVyN 1 2 5) ∧ decodeWord 0x83F0 = .ok (.ldVxVy 3 VF) ∧
  decodeWord 0xE1A1 = .ok (.sknpVx 1) ∧ decodeWord 0xF533 = .ok (.ldBVx 5) ∧
  decodeWord 0x0000 = .error (.unknownInstruction 0x0000) ∧ decodeWord 0x0123 = .error (.unknownInstruction 0x0123) ∧
  decodeWord 0x8008 = .error (.unknownInstruction 0x8008) ∧ decodeWord 0xF0FF = .error (.unknownInstruction 0xF0FF)

/-- Each of the 34 rows of R104, laid out bit by bit in its format of R102, decodes to its instruction with every operand
at every value. The place of Y and 27 patterns are general knowledge by the spec's own mark (G1, G2; log 14). -/
def Obligations.EveryRowOfTheMapDecodes : Prop :=
  decodeWord 0x00E0 = .ok .cls ∧ decodeWord 0x00EE = .ok .ret ∧
  (∀ nnn : BitVec 12,
    decodeWord (layoutNNN 0x1 nnn) = .ok (.jp nnn) ∧ decodeWord (layoutNNN 0x2 nnn) = .ok (.call nnn) ∧
    decodeWord (layoutNNN 0xA nnn) = .ok (.ldINnn nnn) ∧ decodeWord (layoutNNN 0xB nnn) = .ok (.jpV0Nnn nnn)) ∧
  (∀ (x : Reg) (nn : Byte),
    decodeWord (layoutXNN 0x3 x nn) = .ok (.seVxNn x nn) ∧ decodeWord (layoutXNN 0x4 x nn) = .ok (.sneVxNn x nn) ∧
    decodeWord (layoutXNN 0x6 x nn) = .ok (.ldVxNn x nn) ∧ decodeWord (layoutXNN 0x7 x nn) = .ok (.addVxNn x nn) ∧
    decodeWord (layoutXNN 0xC x nn) = .ok (.rndVxNn x nn)) ∧
  (∀ x y : Reg,
    decodeWord (layoutXYN 0x5 x y 0x0) = .ok (.seVxVy x y) ∧ decodeWord (layoutXYN 0x8 x y 0x0) = .ok (.ldVxVy x y) ∧
    decodeWord (layoutXYN 0x8 x y 0x1) = .ok (.orVxVy x y) ∧ decodeWord (layoutXYN 0x8 x y 0x2) = .ok (.andVxVy x y) ∧
    decodeWord (layoutXYN 0x8 x y 0x3) = .ok (.xorVxVy x y) ∧ decodeWord (layoutXYN 0x8 x y 0x4) = .ok (.addVxVy x y) ∧
    decodeWord (layoutXYN 0x8 x y 0x5) = .ok (.subVxVy x y) ∧ decodeWord (layoutXYN 0x8 x y 0x6) = .ok (.shrVxVy x y) ∧
    decodeWord (layoutXYN 0x8 x y 0x7) = .ok (.subnVxVy x y) ∧ decodeWord (layoutXYN 0x8 x y 0xE) = .ok (.shlVxVy x y) ∧
    decodeWord (layoutXYN 0x9 x y 0x0) = .ok (.sneVxVy x y)) ∧
  (∀ (x y : Reg) (n : BitVec 4), decodeWord (layoutXYN 0xD x y n) = .ok (.drwVxVyN x y n.toNat)) ∧
  (∀ x : Reg,
    decodeWord (layoutXNN 0xE x 0x9E) = .ok (.skpVx x) ∧ decodeWord (layoutXNN 0xE x 0xA1) = .ok (.sknpVx x) ∧
    decodeWord (layoutXNN 0xF x 0x07) = .ok (.ldVxDt x) ∧ decodeWord (layoutXNN 0xF x 0x0A) = .ok (.ldVxK x) ∧
    decodeWord (layoutXNN 0xF x 0x15) = .ok (.ldDtVx x) ∧ decodeWord (layoutXNN 0xF x 0x18) = .ok (.ldStVx x) ∧
    decodeWord (layoutXNN 0xF x 0x1E) = .ok (.addIVx x) ∧ decodeWord (layoutXNN 0xF x 0x29) = .ok (.ldFVx x) ∧
    decodeWord (layoutXNN 0xF x 0x33) = .ok (.ldBVx x) ∧ decodeWord (layoutXNN 0xF x 0x55) = .ok (.ldMemVx x) ∧
    decodeWord (layoutXNN 0xF x 0x65) = .ok (.ldVxMem x))

/-- Decode of encode is the instruction: for every well-formed instruction, on the word, on its bytes in memory with
anything after them, and in the opcode table's numbering. -/
def Obligations.DecodeOfEncodeIsTheInstruction : Prop :=
  ∀ i : Instr, i.wellFormed = true →
    decodeWord (encode i) = .ok i ∧ (∀ rest, decode (encodeBytes i ++ rest) = .ok (i, rest)) ∧
    decodeTableWord 16 (encode i).toNat = some i

/-- Encode of decode is the word, so no two words are one instruction, and decoding gives only well-formed
instructions. -/
def Obligations.EncodeOfDecodeIsTheWord : Prop :=
  ∀ (w : Word) (i : Instr), decodeWord w = .ok i → i.wellFormed = true ∧ encode i = w

/-- The illegal words are those of the six classes of R106, and every other word is an instruction (R108). -/
def Obligations.IllegalWordsExactly : Prop :=
  ∀ w : Word,
    (decodeWord w = .error (.unknownInstruction w) ∨ ∃ i, decodeWord w = .ok i) ∧
    (decodeWord w = .error (.unknownInstruction w) ↔
      (w.toNat / 0x1000 = 0x0 ∧ w.toNat % 0x1000 ∉ [0x0E0, 0x0EE]) ∨
      (w.toNat / 0x1000 = 0x5 ∧ w.toNat % 0x10 ≠ 0) ∨
      (w.toNat / 0x1000 = 0x8 ∧ w.toNat % 0x10 ∈ [0x8, 0x9, 0xA, 0xB, 0xC, 0xD, 0xF]) ∨
      (w.toNat / 0x1000 = 0x9 ∧ w.toNat % 0x10 ≠ 0) ∨
      (w.toNat / 0x1000 = 0xE ∧ w.toNat % 0x100 ∉ [0x9E, 0xA1]) ∨
      (w.toNat / 0x1000 = 0xF ∧ w.toNat % 0x100 ∉ [0x07, 0x0A, 0x15, 0x18, 0x1E, 0x29, 0x33, 0x55, 0x65]))

/-! ### The cycle (20_memory.md, 40_control_flow.md section 1, 60_exceptions.md) -/

/-- R76: the two bytes at `PC` and `PC + 1`, big-endian, or the address out of range; so a fetch succeeds exactly when
`PC <= 0xFFE`. -/
def Obligations.FetchIsBigEndianAndChecked : Prop :=
  ∀ s : State,
    (0xFFF < s.pc.toNat → s.fetch = .error s.pc.toNat) ∧
    (s.pc.toNat ≤ 0xFFF → 0xFFF < s.pc.toNat + 1 → s.fetch = .error (s.pc.toNat + 1)) ∧
    (s.pc.toNat + 1 ≤ 0xFFF → s.fetch = .ok (s.readByte s.pc.toNat ++ s.readByte (s.pc.toNat + 1))) ∧
    ((∃ op, s.fetch = .ok op) ↔ s.pc.toNat ≤ 0xFFE)

/-- When the word at `PC` decodes to `i`, a step is `exec` of `i` at the state with `DREW` 0 (R130) and, the model's
bookkeeping, the boot window closed (log 7) and the `Step` event taken from the waiting events (log 2). -/
def Obligations.StepRunsTheDecodedInstruction : Prop :=
  ∀ (s : State) (i : Instr), s.Executes i →
    (s.events = [] → step s = exec i { s with drew := false, bootOpen := false }) ∧
    (∀ es, s.events = .step :: es → step s = exec i { s with drew := false, bootOpen := false, events := es })

/-- A fetch out of range is the error `OutOfBounds` with the address of R76, no opcode, and nothing else changed. Closing
the boot window is the model's bookkeeping (log 7). -/
def Obligations.OutOfRangeFetchHalts : Prop :=
  ∀ s : State, s.status = .running → 0xFFE < s.pc.toNat →
    Halts (stepEvent s) { s with bootOpen := false } .outOfBounds 0 (max s.pc.toNat 0x1000)

/-- R301, R305: an illegal word at `PC` raises `UnknownInstruction`. Closing the boot window is the model's bookkeeping
(log 7). -/
def Obligations.IllegalWordHalts : Prop :=
  ∀ (s : State) (op : Word), s.status = .running → s.pc.toNat ≤ 0xFFE →
    op = s.readByte s.pc.toNat ++ s.readByte (s.pc.toNat + 1) → (∀ i, decodeWord op ≠ .ok i) →
    Halts (stepEvent s) { s with bootOpen := false } .unknownInstruction op 0

/-- R131, in states of the invariant (in others the open boot window is closed too, log 7): a `Step` that finds the core
waiting or halted changes nothing but `DREW`. -/
def Obligations.StepDoesNothingUnlessRunning : Prop :=
  ∀ s : State, s.Inv → s.status = .waitingForKey ∨ s.status = .halted → stepEvent s = .next { s with drew := false }

/-- Every instruction runs at every state (R311), and a step stops only at the one event R358 tells a model to refuse. -/
def Obligations.EveryInstructionRuns : Prop :=
  (∀ (i : Instr) (s : State), ∃ t, exec i s = .next t) ∧
  ∀ s : State, (∃ t, step s = .next t) ∨
    (step s = .refused .loadRomOutsideBootWindow ∧ s.bootOpen = false ∧ ∃ bytes es, s.events = .loadRom bytes :: es)

/-- R305, R306: a `Step` that reaches `Halted` leaves the state before it but for `STATUS`, the latch, `DREW` 0 (log 6)
and the boot window (log 7); `ERR_PC` is the failing instruction's, and the kind is fetch's, decode's or the one kind the
instruction can raise. -/
def Obligations.ErrorsArePrecise : Prop :=
  ∀ s t : State, s.status = .running → stepEvent s = .next t → t.status = .halted →
    t = { s with status := .halted, err := t.err, drew := false, bootOpen := false } ∧ t.err.pc = s.pc ∧
    ((t.err.kind = .outOfBounds ∧ 0xFFE < s.pc.toNat ∧ t.err.opcode = 0) ∨
     (t.err.kind = .unknownInstruction ∧ ∀ i, ¬ s.Executes i) ∨
     (t.err.kind = .stackOverflow ∧ ∃ nnn, s.Executes (.call nnn)) ∨
     (t.err.kind = .stackUnderflow ∧ s.Executes .ret) ∨
     (t.err.kind = .outOfBounds ∧ ((∃ x y n, s.Executes (.drwVxVyN x y n)) ∨ (∃ x, s.Executes (.ldBVx x)) ∨
       (∃ x, s.Executes (.ldMemVx x)) ∨ ∃ x, s.Executes (.ldVxMem x))))

/-- R308, R309: from `Halted`, any events but `Reset` (and but a `LoadRom`, which is refused there) run to a state in which
only the timers, `DREW` and the input port `KEYS` may differ: the latch keeps the first error. -/
def Obligations.HaltedIsTerminal : Prop :=
  ∀ (es : List Event) (s : State), s.status = .halted → s.bootOpen = false →
    (∀ e ∈ es, e ≠ .reset ∧ ∀ bytes, e ≠ .loadRom bytes) →
    ∃ t, applyEvents es s = .next t ∧ t = { s with dt := t.dt, st := t.st, drew := t.drew, keys := t.keys }

/-! ### Control flow (40_control_flow.md) -/

/-- R135, R136: `PC` is `NNN`, or the exact sum `NNN + V[0]`; nothing else changes. -/
def Obligations.JumpsSetPc : Prop :=
  ∀ (nnn : BitVec 12) (s : State),
    decodeWord (layoutNNN 0x1 nnn) = .ok (.jp nnn) ∧ decodeWord (layoutNNN 0xB nnn) = .ok (.jpV0Nnn nnn) ∧
    (∃ t, exec (.jp nnn) s = .next t ∧ t.pc.toNat = nnn.toNat ∧ t = { s with pc := t.pc }) ∧
    (∃ t, exec (.jpV0Nnn nnn) s = .next t ∧ t.pc.toNat = nnn.toNat + (s.reg 0).toNat ∧ t = { s with pc := t.pc })

/-- R133, R303: with fewer than 16 entries a call pushes `PC + 2` and jumps; with 16 it raises `StackOverflow`. -/
def Obligations.CallPushesTheNextAddress : Prop :=
  ∀ (nnn : BitVec 12) (s : State),
    decodeWord (layoutNNN 0x2 nnn) = .ok (.call nnn) ∧
    (∀ h : s.sp.val < 16, ∃ t, exec (.call nnn) s = .next t ∧ t.stack[s.sp.val] = s.pc + 2 ∧
      (∀ k : Fin 16, k.val ≠ s.sp.val → t.stack[k] = s.stack[k]) ∧ t.sp.val = s.sp.val + 1 ∧
      t.pc.toNat = nnn.toNat ∧ t = { s with stack := t.stack, sp := t.sp, pc := t.pc }) ∧
    (s.sp.val = 16 → Halts (exec (.call nnn) s) s .stackOverflow (layoutNNN 0x2 nnn) 0)

/-- R134, R304: with an entry on the stack a return pops it into `PC`, with no further +2; with none it raises
`StackUnderflow`. -/
def Obligations.ReturnPopsTheTop : Prop :=
  decodeWord 0x00EE = .ok .ret ∧
  ∀ s : State,
    (∀ h : 0 < s.sp.val, ∃ t, exec .ret s = .next t ∧ t.pc = s.stack[s.sp.val - 1] ∧ t.sp.val + 1 = s.sp.val ∧
      t = { s with sp := t.sp, pc := t.pc }) ∧
    (s.sp.val = 0 → Halts (exec .ret s) s .stackUnderflow 0x00EE 0)

/-- The return after a call comes back to the instruction after it with the stack as deep and its live entries as they
were (R46 LIFO, R133, R134). -/
def Obligations.CallThenReturnComesBack : Prop :=
  ∀ (nnn : BitVec 12) (s : State), s.sp.val < 16 →
    ∃ t u, exec (.call nnn) s = .next t ∧ exec .ret t = .next u ∧
      u.pc = s.pc + 2 ∧ SameButStale { s with pc := s.pc + 2 } u

/-- R138, R139: skips on a comparison with `NN`. -/
def Obligations.SkipsOnImmediate : Prop :=
  ∀ (x : Reg) (nn : Byte) (s : State),
    decodeWord (layoutXNN 0x3 x nn) = .ok (.seVxNn x nn) ∧ decodeWord (layoutXNN 0x4 x nn) = .ok (.sneVxNn x nn) ∧
    exec (.seVxNn x nn) s = .next { s with pc := if s.reg x = nn then s.pc + 4 else s.pc + 2 } ∧
    exec (.sneVxNn x nn) s = .next { s with pc := if s.reg x ≠ nn then s.pc + 4 else s.pc + 2 }

/-- R140, R141: skips on a comparison of registers; with a low nibble that is not 0 the words are illegal. -/
def Obligations.SkipsOnRegisters : Prop :=
  ∀ (x y : Reg) (s : State),
    decodeWord (layoutXYN 0x5 x y 0) = .ok (.seVxVy x y) ∧ decodeWord (layoutXYN 0x9 x y 0) = .ok (.sneVxVy x y) ∧
    (∀ n : BitVec 4, n ≠ 0 → ∀ i, decodeWord (layoutXYN 0x5 x y n) ≠ .ok i ∧ decodeWord (layoutXYN 0x9 x y n) ≠ .ok i) ∧
    exec (.seVxVy x y) s = .next { s with pc := if s.reg x = s.reg y then s.pc + 4 else s.pc + 2 } ∧
    exec (.sneVxVy x y) s = .next { s with pc := if s.reg x ≠ s.reg y then s.pc + 4 else s.pc + 2 }

/-! ### Loads and the ALU (41_load_alu.md) -/

/-- R161, R162: load immediate; add immediate, wrapping, no flag. -/
def Obligations.LoadAndAddImmediate : Prop :=
  ∀ (x : Reg) (nn : Byte) (s : State),
    decodeWord (layoutXNN 0x6 x nn) = .ok (.ldVxNn x nn) ∧ decodeWord (layoutXNN 0x7 x nn) = .ok (.addVxNn x nn) ∧
    (∃ t, exec (.ldVxNn x nn) s = .next t ∧ t.reg x = nn ∧ OnlyRegs [x] s t) ∧
    (∃ t, exec (.addVxNn x nn) s = .next t ∧ (t.reg x).toNat = ((s.reg x).toNat + nn.toNat) % 256 ∧ OnlyRegs [x] s t)

/-- R163, R164, R165, R166: copy, or, and, xor, bit by bit; VF is written only as the destination. -/
def Obligations.CopyAndLogic : Prop :=
  ∀ (x y : Reg) (s : State),
    decodeWord (layoutXYN 0x8 x y 0x0) = .ok (.ldVxVy x y) ∧ decodeWord (layoutXYN 0x8 x y 0x1) = .ok (.orVxVy x y) ∧
    decodeWord (layoutXYN 0x8 x y 0x2) = .ok (.andVxVy x y) ∧ decodeWord (layoutXYN 0x8 x y 0x3) = .ok (.xorVxVy x y) ∧
    (∃ t, exec (.ldVxVy x y) s = .next t ∧ t.reg x = s.reg y ∧ OnlyRegs [x] s t) ∧
    (∃ t, exec (.orVxVy x y) s = .next t ∧
      (∀ k, (t.reg x).getLsbD k = ((s.reg x).getLsbD k || (s.reg y).getLsbD k)) ∧ OnlyRegs [x] s t) ∧
    (∃ t, exec (.andVxVy x y) s = .next t ∧
      (∀ k, (t.reg x).getLsbD k = ((s.reg x).getLsbD k && (s.reg y).getLsbD k)) ∧ OnlyRegs [x] s t) ∧
    (∃ t, exec (.xorVxVy x y) s = .next t ∧
      (∀ k, (t.reg x).getLsbD k = ((s.reg x).getLsbD k ^^ (s.reg y).getLsbD k)) ∧ OnlyRegs [x] s t)

/-- R167: the sum modulo 256, then VF the carry, which is what remains when X is 0xF. -/
def Obligations.AddSetsCarry : Prop :=
  ∀ (x y : Reg) (s : State),
    decodeWord (layoutXYN 0x8 x y 0x4) = .ok (.addVxVy x y) ∧
    ∃ t, exec (.addVxVy x y) s = .next t ∧
      (x ≠ VF → (t.reg x).toNat = ((s.reg x).toNat + (s.reg y).toNat) % 256) ∧
      (t.reg VF).toNat = (if (s.reg x).toNat + (s.reg y).toNat > 255 then 1 else 0) ∧ OnlyRegs [x, VF] s t

/-- R168, R170: the difference modulo 256, then VF 1 if there is no borrow. -/
def Obligations.SubtractsSetNotBorrow : Prop :=
  ∀ (x y : Reg) (s : State),
    decodeWord (layoutXYN 0x8 x y 0x5) = .ok (.subVxVy x y) ∧ decodeWord (layoutXYN 0x8 x y 0x7) = .ok (.subnVxVy x y) ∧
    (∃ t, exec (.subVxVy x y) s = .next t ∧
      (x ≠ VF → (t.reg x).toNat = ((s.reg x).toNat + 256 - (s.reg y).toNat) % 256) ∧
      (t.reg VF).toNat = (if (s.reg x).toNat ≥ (s.reg y).toNat then 1 else 0) ∧ OnlyRegs [x, VF] s t) ∧
    (∃ t, exec (.subnVxVy x y) s = .next t ∧
      (x ≠ VF → (t.reg x).toNat = ((s.reg y).toNat + 256 - (s.reg x).toNat) % 256) ∧
      (t.reg VF).toNat = (if (s.reg y).toNat ≥ (s.reg x).toNat then 1 else 0) ∧ OnlyRegs [x, VF] s t)

/-- R169, R171: `V[X]` shifted by one in place, then VF the bit shifted out; the Y field is decoded and not used. -/
def Obligations.ShiftsSetTheBitOut : Prop :=
  ∀ (x y : Reg) (s : State),
    decodeWord (layoutXYN 0x8 x y 0x6) = .ok (.shrVxVy x y) ∧ decodeWord (layoutXYN 0x8 x y 0xE) = .ok (.shlVxVy x y) ∧
    (∃ t, exec (.shrVxVy x y) s = .next t ∧ (x ≠ VF → (t.reg x).toNat = (s.reg x).toNat / 2) ∧
      (t.reg VF).toNat = (s.reg x).toNat % 2 ∧ OnlyRegs [x, VF] s t) ∧
    (∃ t, exec (.shlVxVy x y) s = .next t ∧ (x ≠ VF → (t.reg x).toNat = (s.reg x).toNat * 2 % 256) ∧
      (t.reg VF).toNat = (s.reg x).toNat / 128 ∧ OnlyRegs [x, VF] s t)

/-- R172: the draw masked with `NN`, one draw used up. The draw is the environment's next one or a free value `Config.rnd`
applied to a counter; that form is the model's (log 1), and nothing is said of its value. -/
def Obligations.RandomIsADrawMasked : Prop :=
  ∀ (x : Reg) (nn : Byte) (s : State),
    decodeWord (layoutXNN 0xC x nn) = .ok (.rndVxNn x nn) ∧
    ∃ t, exec (.rndVxNn x nn) s = .next t ∧
      (∀ d ds, s.rndInputs = d :: ds →
        t.reg x = d &&& nn ∧ t = { s with v := t.v, pc := t.pc, rndInputs := ds }) ∧
      (s.rndInputs = [] →
        t.reg x = Config.rnd s.rndCount &&& nn ∧ t = { s with v := t.v, pc := t.pc, rndCount := s.rndCount + 1 }) ∧
      t.pc = s.pc + 2 ∧ (∀ r, r ≠ x → t.reg r = s.reg r) ∧ SameMemory s t

/-! ### Index and memory (42_index_memory.md) -/

/-- R200, R201, R202: the three writers of `I`; none writes VF. -/
def Obligations.IndexRegisterWrites : Prop :=
  (∀ (nnn : BitVec 12) (s : State), decodeWord (layoutNNN 0xA nnn) = .ok (.ldINnn nnn) ∧
    ∃ t, exec (.ldINnn nnn) s = .next t ∧ t.i.toNat = nnn.toNat ∧ t = { s with i := t.i, pc := s.pc + 2 }) ∧
  ∀ (x : Reg) (s : State),
    decodeWord (layoutXNN 0xF x 0x1E) = .ok (.addIVx x) ∧ decodeWord (layoutXNN 0xF x 0x29) = .ok (.ldFVx x) ∧
    (∃ t, exec (.addIVx x) s = .next t ∧ t.i.toNat = (s.i.toNat + (s.reg x).toNat) % 65536 ∧
      t = { s with i := t.i, pc := s.pc + 2 }) ∧
    (s.config.wf → ∃ t, exec (.ldFVx x) s = .next t ∧
      t.i.toNat = s.config.fontBase.toNat + 5 * ((s.reg x).toNat % 16) ∧ t = { s with i := t.i, pc := s.pc + 2 })

/-- R203: the three decimal digits at `I`, `I + 1`, `I + 2`, no other byte changed; or, with an address out of range,
`OutOfBounds` and no byte written. -/
def Obligations.BcdStoresThreeDigits : Prop :=
  ∀ (x : Reg) (s : State),
    decodeWord (layoutXNN 0xF x 0x33) = .ok (.ldBVx x) ∧
    (s.i.toNat + 2 ≤ 0xFFF → ∃ t, exec (.ldBVx x) s = .next t ∧
      (s.memOk → (t.readByte s.i.toNat).toNat = (s.reg x).toNat / 100 ∧
        (t.readByte (s.i.toNat + 1)).toNat = (s.reg x).toNat / 10 % 10 ∧
        (t.readByte (s.i.toNat + 2)).toNat = (s.reg x).toNat % 10) ∧
      (∀ a, ¬ (s.i.toNat ≤ a ∧ a < s.i.toNat + 3) → t.readByte a = s.readByte a) ∧
      t = { s with mem := t.mem, pc := s.pc + 2 }) ∧
    (0xFFF < s.i.toNat + 2 →
      Halts (exec (.ldBVx x) s) s .outOfBounds (layoutXNN 0xF x 0x33) (max s.i.toNat 0x1000))

/-- R204: `V[0]`..`V[X]` at `I`.., no other byte changed, `I` unchanged; or `OutOfBounds` and no byte written. -/
def Obligations.StoresRegistersAtI : Prop :=
  ∀ (x : Reg) (s : State),
    decodeWord (layoutXNN 0xF x 0x55) = .ok (.ldMemVx x) ∧
    (s.i.toNat + x.val ≤ 0xFFF → ∃ t, exec (.ldMemVx x) s = .next t ∧
      (s.memOk → ∀ k : Reg, k ≤ x → t.readByte (s.i.toNat + k.val) = s.reg k) ∧
      (∀ a, ¬ (s.i.toNat ≤ a ∧ a ≤ s.i.toNat + x.val) → t.readByte a = s.readByte a) ∧
      t = { s with mem := t.mem, pc := s.pc + 2 }) ∧
    (0xFFF < s.i.toNat + x.val →
      Halts (exec (.ldMemVx x) s) s .outOfBounds (layoutXNN 0xF x 0x55) (max s.i.toNat 0x1000))

/-- R205: `V[0]`..`V[X]` from `I`.., the other registers and `I` unchanged; or `OutOfBounds` and no register written. -/
def Obligations.LoadsRegistersFromI : Prop :=
  ∀ (x : Reg) (s : State),
    decodeWord (layoutXNN 0xF x 0x65) = .ok (.ldVxMem x) ∧
    (s.i.toNat + x.val ≤ 0xFFF → ∃ t, exec (.ldVxMem x) s = .next t ∧
      (∀ k : Reg, t.reg k = if k ≤ x then s.readByte (s.i.toNat + k.val) else s.reg k) ∧ SameMemory s t ∧
      t = { s with v := t.v, pc := s.pc + 2 }) ∧
    (0xFFF < s.i.toNat + x.val →
      Halts (exec (.ldVxMem x) s) s .outOfBounds (layoutXNN 0xF x 0x65) (max s.i.toNat 0x1000))

/-- R73, R74: the check of an access to the `n` bytes at `a` passes exactly when every address is at most 0xFFF, and else
reports the lowest address above it. -/
def Obligations.AddressCheckReportsTheLowest : Prop :=
  ∀ a n : Nat,
    (firstOutOfRange a n = none ↔ ∀ k, k < n → a + k ≤ 0xFFF) ∧
    (∀ b, firstOutOfRange a n = some b ↔
      (∃ k, k < n ∧ b = a + k) ∧ 0xFFF < b ∧ ∀ k, k < n → 0xFFF < a + k → b ≤ a + k)

/-- R85, R361: an FX55 that stores into the two bytes right after it changes what the next fetch reads. -/
def Obligations.StoreIntoTheNextInstructionIsFetched : Prop :=
  ∀ (x : Reg) (s : State), s.memOk → 1 ≤ x.val → s.i = s.pc + 2 → s.pc.toNat + 2 + x.val ≤ 0xFFF →
    ∃ t, exec (.ldMemVx x) s = .next t ∧ t.pc = s.pc + 2 ∧ t.fetch = .ok (s.reg 0 ++ s.reg 1)

/-! ### Display (43_display.md) -/

/-- R230: every pixel off, `DREW` 1, nothing else. -/
def Obligations.ClearScreenTurnsEveryPixelOff : Prop :=
  decodeWord 0x00E0 = .ok .cls ∧
  ∀ s : State, ∃ t, exec .cls s = .next t ∧ (∀ y x, t.fb.pixel y x = false) ∧ SameMemory s t ∧
    t = { s with fb := t.fb, drew := true, pc := s.pc + 2 }

/-- R231, R232, R233, R234: a draw toggles exactly the cells a sprite bit of 1 falls on, both axes wrapping, and VF is 1
if one of those cells was on, else 0. -/
def Obligations.DrawTogglesTheSpriteBits : Prop :=
  ∀ (x y : Reg) (n : BitVec 4) (s : State), decodeWord (layoutXYN 0xD x y n) = .ok (.drwVxVyN x y n.toNat) ∧
    (n = 0 ∨ s.i.toNat + n.toNat - 1 ≤ 0xFFF → ∃ t, exec (.drwVxVyN x y n.toNat) s = .next t ∧
      (∀ py px, t.fb.pixel py px =
        (s.fb.pixel py px ^^ spriteBit s (s.reg x).toNat (s.reg y).toNat n.toNat py px)) ∧
      ((∃ py px, s.fb.pixel py px = true ∧ t.fb.pixel py px = false) → t.reg VF = 1) ∧
      ((∀ py px, s.fb.pixel py px = true → t.fb.pixel py px = true) → t.reg VF = 0) ∧
      (∀ r, r ≠ VF → t.reg r = s.reg r) ∧ SameMemory s t ∧
      t = { s with v := t.v, fb := t.fb, drew := true, pc := s.pc + 2 }) ∧
    (n ≠ 0 → 0xFFF < s.i.toNat + n.toNat - 1 →
      Halts (exec (.drwVxVyN x y n.toNat) s) s .outOfBounds (layoutXYN 0xD x y n) (max s.i.toNat 0x1000))

/-- R236: a draw of no rows changes no pixel and cannot fail, whatever `I` holds; VF is 0 and `DREW` 1. -/
def Obligations.DrawOfNoRowsChangesNoPixel : Prop :=
  ∀ (x y : Reg) (s : State), ∃ t, exec (.drwVxVyN x y 0) s = .next t ∧ t.reg VF = 0 ∧
    (∀ r, r ≠ VF → t.reg r = s.reg r) ∧ SameMemory s t ∧ t = { s with v := t.v, drew := true, pc := s.pc + 2 }

/-- Drawing the same sprite twice at the same place restores the framebuffer (R235), and the second draw turns a pixel off,
so that VF is 1, exactly when a sprite bit of 1 lies on a cell that was off before the first. R235 adds, as an inference of
its own, VF = 1 whenever the sprite has a bit of 1; by R233 that is so only where such a cell was off (log 19). -/
def Obligations.DrawTwiceRestoresTheScreen : Prop :=
  ∀ (x y : Reg) (n : BitVec 4) (s t : State), n = 0 ∨ s.i.toNat + n.toNat - 1 ≤ 0xFFF →
    exec (.drwVxVyN x y n.toNat) s = .next t → t.reg x = s.reg x → t.reg y = s.reg y →
    ∃ u, exec (.drwVxVyN x y n.toNat) t = .next u ∧ u.fb = s.fb ∧
      ((∃ py px, s.fb.pixel py px = false ∧
          spriteBit s (s.reg x).toNat (s.reg y).toNat n.toNat py px = true) → u.reg VF = 1) ∧
      ((∀ py px, spriteBit s (s.reg x).toNat (s.reg y).toNat n.toNat py px = true →
          s.fb.pixel py px = true) → u.reg VF = 0)

/-- R32, R237: after a `Step`, `DREW` is 1 exactly when it completed a 00E0 or DXYN. -/
def Obligations.DrewTellsOfACompletedDraw : Prop :=
  ∀ s t : State, stepEvent s = .next t →
    (t.drew = true ↔ (s.Executes .cls ∨ ∃ x y n, s.Executes (.drwVxVyN x y n)) ∧ t.status ≠ .halted)

/-! ### Keypad and timers (44_keypad_timer.md) -/

/-- R260, R261, R262: skips on the key named by the low nibble of `V[X]`. -/
def Obligations.SkipsOnAKey : Prop :=
  ∀ (x : Reg) (s : State),
    decodeWord (layoutXNN 0xE x 0x9E) = .ok (.skpVx x) ∧ decodeWord (layoutXNN 0xE x 0xA1) = .ok (.sknpVx x) ∧
    exec (.skpVx x) s =
      .next { s with pc := if s.keys.getLsbD ((s.reg x).toNat % 16) = true then s.pc + 4 else s.pc + 2 } ∧
    exec (.sknpVx x) s =
      .next { s with pc := if s.keys.getLsbD ((s.reg x).toNat % 16) = false then s.pc + 4 else s.pc + 2 }

/-- R265: FX0A latches X and suspends the core; `PC` stays on it. -/
def Obligations.WaitForKeySuspends : Prop :=
  ∀ (x : Reg) (s : State), decodeWord (layoutXNN 0xF x 0x0A) = .ok (.ldVxK x) ∧
    exec (.ldVxK x) s = .next { s with waitX := x, status := .waitingForKey }

/-- R266, R267: a key event ends the wait, writes the key code into the latched register and advances `PC` by 2; in any
other status it changes nothing. -/
def Obligations.KeyEventEndsTheWait : Prop :=
  ∀ (k : BitVec 4) (s : State),
    (s.status = .waitingForKey → ∃ t, applyEvent (.keyEvent k) s = .next t ∧ (t.reg s.waitX).toNat = k.toNat ∧
      (∀ r, r ≠ s.waitX → t.reg r = s.reg r) ∧ SameMemory s t ∧
      t = { s with v := t.v, pc := s.pc + 2, status := .running }) ∧
    (s.status = .running ∨ s.status = .halted → applyEvent (.keyEvent k) s = .next s)

/-- R270, R271, R272: the timer transfers. -/
def Obligations.TimerTransfers : Prop :=
  ∀ (x : Reg) (s : State),
    decodeWord (layoutXNN 0xF x 0x07) = .ok (.ldVxDt x) ∧ decodeWord (layoutXNN 0xF x 0x15) = .ok (.ldDtVx x) ∧
    decodeWord (layoutXNN 0xF x 0x18) = .ok (.ldStVx x) ∧
    (∃ t, exec (.ldVxDt x) s = .next t ∧ t.reg x = s.dt ∧ OnlyRegs [x] s t) ∧
    exec (.ldDtVx x) s = .next { s with dt := s.reg x, pc := s.pc + 2 } ∧
    exec (.ldStVx x) s = .next { s with st := s.reg x, pc := s.pc + 2 } ∧
    (∀ t, exec (.ldStVx x) s = .next t → t.soundActive = decide (s.reg x ≠ 0))

/-- R280, R281: a tick takes 1 from each timer that is above 0, in every status, and changes nothing else (but the boot
window, log 7). -/
def Obligations.TickCountsDown : Prop :=
  ∀ s : State, ∃ t, applyEvent .tick s = .next t ∧
    t.dt.toNat = (if s.dt.toNat > 0 then s.dt.toNat - 1 else 0) ∧
    t.st.toNat = (if s.st.toNat > 0 then s.st.toNat - 1 else 0) ∧
    t = { s with dt := t.dt, st := t.st, bootOpen := false }

/-- R282, R363: after `n` ticks each timer is lower by `n`, down to 0, so a timer holding `v` is 0 after exactly `v` ticks
and stays 0; and what FX07 reads `n` ticks after an FX15 is lower by `n`, down to 0. -/
def Obligations.TimersFallByTheTicks : Prop :=
  (∀ (n : Nat) (s : State), ∃ t, applyEvents (List.replicate n .tick) s = .next t ∧
    t.dt.toNat = s.dt.toNat - n ∧ t.st.toNat = s.st.toNat - n) ∧
  ∀ (n : Nat) (x y : Reg) (s : State), ∃ t u w, exec (.ldDtVx x) s = .next t ∧
    applyEvents (List.replicate n .tick) t = .next u ∧ exec (.ldVxDt y) u = .next w ∧
    (w.reg y).toNat = (s.reg x).toNat - n

/-- R276: no instruction reads `ST`: run from a state with another `ST`, every instruction does the same, and the sound
timer is the other one or, after FX18, the same. -/
def Obligations.SoundTimerReadByNoInstruction : Prop :=
  ∀ (i : Instr) (b : Byte) (s t : State), exec i s = .next t →
    exec i { s with st := b } = .next (match i with | .ldStVx _ => t | _ => { t with st := b })

/-! ### Reset and boot (70_reset_and_hazards.md, 10_state.md) -/

/-- R62, R350: `Reset`, from any state, puts every element to its reset value; memory is 0 but for `FONT_DATA` at
`FONT_BASE`; `KEYS` stays. That the parameters stay too is the model's choice (logs 3 and 16). -/
def Obligations.ResetSetsEveryElement : Prop :=
  ∀ s : State, ∃ t, applyEvent .reset s = .next t ∧ (∀ r, t.reg r = 0) ∧ t.i = 0 ∧ t.pc = 0x200 ∧ t.sp = 0 ∧
    (∀ k : Fin 16, t.stack[k] = 0) ∧ t.dt = 0 ∧ t.st = 0 ∧ (∀ y x, t.fb.pixel y x = false) ∧ t.status = .running ∧
    t.waitX = 0 ∧ t.err.kind = .none ∧ t.err.pc = 0 ∧ t.err.opcode = 0 ∧ t.err.addr = 0 ∧ t.drew = false ∧
    (∀ k : Fin 80, t.readByte (s.config.fontBase.toNat + k.val) = s.config.fontData[k]) ∧
    (∀ a, a < s.config.fontBase.toNat ∨ s.config.fontBase.toNat + 80 ≤ a → t.readByte a = 0) ∧
    t.keys = s.keys ∧ t.config = s.config

/-- R356: in the boot window an image of at most 3584 bytes is copied to 0x200, and no other byte and no register
changes. -/
def Obligations.LoadRomCopiesTheImage : Prop :=
  ∀ (bytes : List Byte) (s : State), s.memOk → s.bootOpen = true → bytes.length ≤ 3584 →
    ∃ t, applyEvent (.loadRom bytes) s = .next t ∧
      (∀ k, k < bytes.length → t.readByte (0x200 + k) = bytes.getD k 0) ∧
      (∀ a, ¬ (0x200 ≤ a ∧ a < 0x200 + bytes.length) → t.readByte a = s.readByte a) ∧
      t = { s with mem := t.mem, bootOpen := false }

/-- R357, R358: a longer image writes no memory and halts the core with `RomTooLarge`; outside the boot window, and so a
second time, `LoadRom` is refused. The bit for the window is the model's (log 7). -/
def Obligations.LoadRomFailsOrIsRefused : Prop :=
  ∀ (bytes : List Byte) (s : State),
    (s.bootOpen = true → 3584 < bytes.length → ∃ t, applyEvent (.loadRom bytes) s = .next t ∧ t.status = .halted ∧
      t.err.kind = .romTooLarge ∧ t.err.pc = 0x200 ∧ t.err.opcode = 0 ∧ t.err.addr = 0 ∧
      t = { s with status := t.status, err := t.err, bootOpen := false }) ∧
    (s.bootOpen = false → applyEvent (.loadRom bytes) s = .refused .loadRomOutsideBootWindow)

/-- With nothing loaded the first step after reset fetches 0x0000 at 0x200 and halts (R356, R107, R351). That this step is a
`Step` rests on the model's choice that no event waits in `State.reset` (log 2), and the closed boot window is the model's
bookkeeping (log 7). -/
def Obligations.NothingLoadedHaltsAtOnce : Prop :=
  Halts (step State.reset) { State.reset with bootOpen := false } .unknownInstruction 0x0000 0

/-! ### The whole machine -/

/-- The machine after reset has the invariant. -/
def Obligations.ResetHasTheInvariant : Prop := State.reset.Inv

/-- Every step keeps the invariant: canonical memory, the bound on `PC` (R45) and on return addresses, the latch set exactly
in `Halted` with `PC` and `ERR_ADDR` as R58, R305, R357 say, and the boot window only in the reset state. -/
def Obligations.StepKeepsTheInvariant : Prop := ∀ s s' : State, s.Inv → step s = .next s' → s'.Inv

/-- R55: `STATUS` changes only as the table says; that the core is `Running` in the boot window holds in the states of the
invariant. -/
def Obligations.StatusChangesOnlyAsTabled : Prop :=
  ∀ (e : Event) (s t : State), applyEvent e s = .next t → t.status ≠ s.status →
    (s.status = .running ∧ e = .step ∧ t.status = .waitingForKey ∧ ∃ x, s.Executes (.ldVxK x)) ∨
    (s.status = .waitingForKey ∧ t.status = .running ∧ ∃ k, e = .keyEvent k) ∨
    (s.status = .running ∧ e = .step ∧ t.status = .halted ∧ t.err.pc = s.pc ∧ t.err.kind ≠ .none) ∨
    (s.bootOpen = true ∧ (s.Inv → s.status = .running) ∧ t.status = .halted ∧
      ∃ bytes, e = .loadRom bytes ∧ 3584 < bytes.length) ∨
    (e = .reset ∧ t.status = .running)

/-- R42: an instruction writes a general register only where the table names it. -/
def Obligations.RegistersWrittenOnlyAsTabled : Prop :=
  ∀ (i : Instr) (s t : State) (r : Reg), exec i s = .next t → t.reg r ≠ s.reg r → MayWrite i r

/-- R51: only 00E0, DXYN and `Reset` write the framebuffer. -/
def Obligations.FramebufferWrittenOnlyByDrawing : Prop :=
  ∀ (e : Event) (s t : State), applyEvent e s = .next t → t.fb ≠ s.fb →
    e = .reset ∨ (e = .step ∧ (s.Executes .cls ∨ ∃ x y n, s.Executes (.drwVxVyN x y n)))

/-- R79: only FX33 and FX55 store to memory, FX33 only to `I .. I+2` and FX55 only to `I .. I+X`. -/
def Obligations.MemoryWrittenOnlyByStores : Prop :=
  ∀ (i : Instr) (s t : State) (a : Nat), exec i s = .next t → t.readByte a ≠ s.readByte a →
    ∃ x, (i = .ldBVx x ∧ s.i.toNat ≤ a ∧ a ≤ s.i.toNat + 2) ∨
      (i = .ldMemVx x ∧ s.i.toNat ≤ a ∧ a ≤ s.i.toNat + x.val)

/-- R43, R47, R48, R52, R56: `I`, the stack, the timers and `WAIT_X` are written by the instructions the rules name, `KEYS`
by none. The clauses on `config`, `events` and `bootOpen` are about the model's own fields (logs 3, 2 and 7): no
instruction writes the parameters, the waiting events or the boot window. -/
def Obligations.SpecialStateWrittenOnlyAsNamed : Prop :=
  ∀ (i : Instr) (s t : State), exec i s = .next t →
    (t.i ≠ s.i → (∃ nnn, i = .ldINnn nnn) ∨ ∃ x, i = .addIVx x ∨ i = .ldFVx x) ∧
    (t.stack ≠ s.stack → ∃ nnn, i = .call nnn) ∧ (t.sp ≠ s.sp → i = .ret ∨ ∃ nnn, i = .call nnn) ∧
    (t.dt ≠ s.dt → ∃ x, i = .ldDtVx x) ∧ (t.st ≠ s.st → ∃ x, i = .ldStVx x) ∧
    (t.waitX ≠ s.waitX → ∃ x, i = .ldVxK x) ∧
    t.keys = s.keys ∧ t.config = s.config ∧ t.events = s.events ∧ t.bootOpen = s.bootOpen

/-- R47: stack slots at or above the depth never matter: two states that differ only there take the same step to states
that differ only there. -/
def Obligations.StaleStackSlotsNeverMatter : Prop :=
  ∀ s t : State, SameButStale s t →
    (∀ s', step s = .next s' → ∃ t', step t = .next t' ∧ SameButStale s' t') ∧
    (∀ r, step s = .refused r → step t = .refused r)

/-- R371: a `Step` changes nothing in `Halted`, in `WaitingForKey` and at a 1NNN jumping to itself, once `DREW` is 0 and the
boot window closed (log 7). -/
def Obligations.QuietStates : Prop :=
  ∀ s : State, s.drew = false → s.bootOpen = false →
    s.status = .halted ∨ s.status = .waitingForKey ∨ (∃ nnn, s.Executes (.jp nnn) ∧ s.pc.toNat = nnn.toNat) → s.quiet

/-- R32, R49, R59: the outputs. -/
def Obligations.OutputsAreAsTabled : Prop :=
  Status.running.code = 0 ∧ Status.waitingForKey.code = 1 ∧ Status.halted.code = 2 ∧
  ErrKind.none.code = 0 ∧ ErrKind.unknownInstruction.code = 1 ∧ ErrKind.outOfBounds.code = 2 ∧
  ErrKind.stackOverflow.code = 3 ∧ ErrKind.stackUnderflow.code = 4 ∧ ErrKind.romTooLarge.code = 5 ∧
  ∀ s : State, s.soundActive = decide (0 < s.st.toNat) ∧ s.statusOut = s.status.code ∧
    s.errOut = (s.err.kind.code, s.err.pc, s.err.opcode, s.err.addr) ∧ s.drewOut = s.drew ∧
    ∀ y x, s.fbOut y x = s.fb.pixel y x

/-- The boot sequence (R355, R356, R351): from any state, `Reset` opens the boot window and a `LoadRom` of at most 3584 bytes
then leaves a running core at 0x200 with the image in memory and zeros above it; a second `LoadRom` is refused (R358). The
bit for the window is the model's (log 7), and so is the bound on the font's place (log 3; R72). -/
def Obligations.ResetThenLoadRomBoots : Prop :=
  ∀ (bytes : List Byte) (s : State), bytes.length ≤ 3584 →
    ∃ t u, applyEvent .reset s = .next t ∧ t.bootOpen = true ∧ applyEvent (.loadRom bytes) t = .next u ∧
      u.status = .running ∧ u.pc = 0x200 ∧ (∀ k, k < bytes.length → u.readByte (0x200 + k) = bytes.getD k 0) ∧
      (s.config.wf → ∀ a, 0x200 + bytes.length ≤ a → a ≤ 0xFFF → u.readByte a = 0) ∧
      ∀ more, applyEvent (.loadRom more) u = .refused .loadRomOutsideBootWindow
end

