-- ==== Sys2Proof/Laws/Decode.lean ====
section
/-! SUPPORT. The fields of the words the encoder builds, and words as bytes. -/

namespace Sys2Proof

/-! ### The fields of each format (R101, R102) -/

theorem fmtNNN_toNat {c : Nat} (hc : c < 16) (nnn : BitVec 12) : (fmtNNN c nnn).toNat = c * 0x1000 + nnn.toNat := by
  have := nnn.isLt; simp only [fmtNNN, BitVec.toNat_ofNat]; omega

theorem fmtXNN_toNat {c : Nat} (hc : c < 16) (x : Reg) (nn : Byte) :
    (fmtXNN c x nn).toNat = c * 0x1000 + x.val * 0x100 + nn.toNat := by
  have := nn.isLt; have := x.isLt; simp only [fmtXNN, BitVec.toNat_ofNat]; omega

theorem fmtXYN_toNat {c : Nat} (hc : c < 16) (x y : Reg) (n : Nat) :
    (fmtXYN c x y n).toNat = c * 0x1000 + x.val * 0x100 + y.val * 0x10 + n % 16 := by
  have := x.isLt; have := y.isLt; simp only [fmtXYN, BitVec.toNat_ofNat]; omega

theorem fmtXF_toNat {c f : Nat} (hc : c < 16) (hf : f < 256) (x : Reg) :
    (fmtXF c x f).toNat = c * 0x1000 + x.val * 0x100 + f := by
  have := x.isLt; simp only [fmtXF, BitVec.toNat_ofNat]; omega

theorem opClass_fmtNNN {c : Nat} (hc : c < 16) (nnn : BitVec 12) : opClass (fmtNNN c nnn) = c := by
  have := nnn.isLt; rw [opClass, fmtNNN_toNat hc]; omega

theorem opNNN_fmtNNN {c : Nat} (hc : c < 16) (nnn : BitVec 12) : opNNN (fmtNNN c nnn) = nnn := by
  have := nnn.isLt; apply BitVec.eq_of_toNat_eq; rw [opNNN, BitVec.toNat_setWidth, fmtNNN_toNat hc]; omega

theorem opClass_fmtXNN {c : Nat} (hc : c < 16) (x : Reg) (nn : Byte) : opClass (fmtXNN c x nn) = c := by
  have := nn.isLt; have := x.isLt; rw [opClass, fmtXNN_toNat hc]; omega

theorem opX_fmtXNN {c : Nat} (hc : c < 16) (x : Reg) (nn : Byte) : opX (fmtXNN c x nn) = x := by
  have := nn.isLt; have := x.isLt; apply Fin.ext; simp only [opX, fmtXNN_toNat hc]; omega

theorem opNN_fmtXNN {c : Nat} (hc : c < 16) (x : Reg) (nn : Byte) : opNN (fmtXNN c x nn) = nn := by
  have := nn.isLt; have := x.isLt; apply BitVec.eq_of_toNat_eq
  rw [opNN, BitVec.toNat_setWidth, fmtXNN_toNat hc]; omega

theorem opClass_fmtXYN {c : Nat} (hc : c < 16) (x y : Reg) (n : Nat) : opClass (fmtXYN c x y n) = c := by
  have := x.isLt; have := y.isLt; rw [opClass, fmtXYN_toNat hc]; omega

theorem opX_fmtXYN {c : Nat} (hc : c < 16) (x y : Reg) (n : Nat) : opX (fmtXYN c x y n) = x := by
  have := x.isLt; have := y.isLt; apply Fin.ext; simp only [opX, fmtXYN_toNat hc]; omega

theorem opY_fmtXYN {c : Nat} (hc : c < 16) (x y : Reg) (n : Nat) : opY (fmtXYN c x y n) = y := by
  have := x.isLt; have := y.isLt; apply Fin.ext; simp only [opY, fmtXYN_toNat hc]; omega

theorem opN_fmtXYN {c : Nat} (hc : c < 16) (x y : Reg) (n : Nat) : opN (fmtXYN c x y n) = n % 16 := by
  have := x.isLt; have := y.isLt; rw [opN, fmtXYN_toNat hc]; omega

/-- Format `XF` is format `XNN` with the sub-function in the place of `NN`. -/
theorem fmtXF_eq_fmtXNN (c f : Nat) (hf : f < 256) (x : Reg) : fmtXF c x f = fmtXNN c x (BitVec.ofNat 8 f) := by
  simp only [fmtXF, fmtXNN, BitVec.toNat_ofNat]; congr 2; omega

theorem fmtXF_selects {c f : Nat} (hc : c < 16) (hf : f < 256) (x : Reg) :
    opClass (fmtXF c x f) = c ∧ (opNN (fmtXF c x f)).toNat = f := by
  have := x.isLt
  simp only [opClass, opNN, fmtXF, BitVec.toNat_setWidth, BitVec.toNat_ofNat]
  omega

/-! ### The formats are the layouts of R102 -/

theorem layoutNNN_eq (c : BitVec 4) (nnn : BitVec 12) : Machine.layoutNNN c nnn = fmtNNN c.toNat nnn := by
  apply BitVec.eq_of_toNat_eq
  rw [fmtNNN_toNat c.isLt, Machine.layoutNNN, BitVec.toNat_append, Nat.shiftLeft_eq, Nat.mul_comm,
    ← Nat.two_pow_add_eq_or_of_lt nnn.isLt]

theorem layoutXNN_eq (c : BitVec 4) (x : Reg) (nn : Byte) : Machine.layoutXNN c x nn = fmtXNN c.toNat x nn := by
  have hx := x.isLt; have := nn.isLt
  apply BitVec.eq_of_toNat_eq
  rw [fmtXNN_toNat c.isLt, Machine.layoutXNN, BitVec.toNat_append, BitVec.toNat_append, Nat.shiftLeft_eq,
    Nat.shiftLeft_eq, Nat.mul_comm, ← Nat.two_pow_add_eq_or_of_lt nn.isLt, Nat.mul_comm c.toNat,
    ← Nat.two_pow_add_eq_or_of_lt (BitVec.ofNat 4 x.val).isLt, BitVec.toNat_ofNat]
  omega

theorem layoutXYN_eq (c : BitVec 4) (x y : Reg) (n : BitVec 4) :
    Machine.layoutXYN c x y n = fmtXYN c.toNat x y n.toNat := by
  have hx := x.isLt; have hy := y.isLt; have := n.isLt
  apply BitVec.eq_of_toNat_eq
  rw [fmtXYN_toNat c.isLt, Machine.layoutXYN, BitVec.toNat_append, BitVec.toNat_append, BitVec.toNat_append,
    Nat.shiftLeft_eq, Nat.shiftLeft_eq, Nat.shiftLeft_eq, Nat.mul_comm, ← Nat.two_pow_add_eq_or_of_lt n.isLt,
    Nat.mul_comm _ (2 ^ 4), ← Nat.two_pow_add_eq_or_of_lt (BitVec.ofNat 4 y.val).isLt, Nat.mul_comm c.toNat,
    ← Nat.two_pow_add_eq_or_of_lt (BitVec.ofNat 4 x.val).isLt, BitVec.toNat_ofNat, BitVec.toNat_ofNat]
  omega

/-! ### A word is rebuilt from its fields -/

theorem fmtNNN_fields (w : Word) {c : Nat} (h : opClass w = c) : fmtNNN c (opNNN w) = w := by
  have := w.isLt; subst h
  apply BitVec.eq_of_toNat_eq
  rw [fmtNNN_toNat (by unfold opClass; omega)]
  simp only [opClass, opNNN, BitVec.toNat_setWidth]; omega

theorem fmtXNN_fields (w : Word) {c : Nat} (h : opClass w = c) : fmtXNN c (opX w) (opNN w) = w := by
  have := w.isLt; subst h
  apply BitVec.eq_of_toNat_eq
  rw [fmtXNN_toNat (by unfold opClass; omega)]
  simp only [opClass, opX, opNN, BitVec.toNat_setWidth]; omega

theorem fmtXYN_fields (w : Word) {c n : Nat} (h : opClass w = c) (hn : opN w = n) :
    fmtXYN c (opX w) (opY w) n = w := by
  have := w.isLt; subst h; subst hn
  apply BitVec.eq_of_toNat_eq
  rw [fmtXYN_toNat (by unfold opClass; omega)]
  simp only [opClass, opX, opY, opN]; omega

theorem fmtXF_fields (w : Word) {c f : Nat} (h : opClass w = c) (hf : (opNN w).toNat = f) :
    fmtXF c (opX w) f = w := by
  subst hf
  rw [fmtXF_eq_fmtXNN _ _ (opNN w).isLt]; simpa using fmtXNN_fields w h

/-! ### The words of the instructions that can raise an error -/

theorem encode_call (nnn : BitVec 12) : encode (.call nnn) = Machine.layoutNNN 0x2 nnn := by
  rw [layoutNNN_eq]; rfl

theorem encode_drwVxVyN (x y : Reg) (n : BitVec 4) :
    encode (.drwVxVyN x y n.toNat) = Machine.layoutXYN 0xD x y n := by
  rw [layoutXYN_eq]; rfl

theorem encode_ldBVx (x : Reg) : encode (.ldBVx x) = Machine.layoutXNN 0xF x 0x33 := by
  rw [layoutXNN_eq, encode, fmtXF_eq_fmtXNN _ _ (by decide)]; rfl

theorem encode_ldMemVx (x : Reg) : encode (.ldMemVx x) = Machine.layoutXNN 0xF x 0x55 := by
  rw [layoutXNN_eq, encode, fmtXF_eq_fmtXNN _ _ (by decide)]; rfl

theorem encode_ldVxMem (x : Reg) : encode (.ldVxMem x) = Machine.layoutXNN 0xF x 0x65 := by
  rw [layoutXNN_eq, encode, fmtXF_eq_fmtXNN _ _ (by decide)]; rfl

/-! ### Words as bytes (R76, R77) -/

theorem wordOfBytes_toNat (hi lo : Byte) : (wordOfBytes hi lo).toNat = hi.toNat * 256 + lo.toNat := by
  rw [wordOfBytes, BitVec.toNat_append, Nat.shiftLeft_eq, Nat.mul_comm, ← Nat.two_pow_add_eq_or_of_lt lo.isLt]

theorem wordOfBytes_bytesOfWord (w : Word) : wordOfBytes (w.extractLsb' 8 8) (w.extractLsb' 0 8) = w := by
  have := w.isLt
  apply BitVec.eq_of_toNat_eq
  rw [wordOfBytes_toNat, BitVec.extractLsb'_toNat, BitVec.extractLsb'_toNat, Nat.shiftRight_eq_div_pow]
  simp only [Nat.shiftRight_zero]
  omega

/-- Decoding the bytes of a word, with anything after them, is decoding the word. -/
theorem decode_bytesOfWord (w : Word) (rest : List Byte) :
    decode (bytesOfWord w ++ rest) = (decodeWord w).map fun i => (i, rest) := by
  simp only [bytesOfWord, List.cons_append, List.nil_append, decode, wordOfBytes_bytesOfWord]
  cases decodeWord w <;> rfl

@[simp] theorem bytesOfWord_length (w : Word) : (bytesOfWord w).length = 2 := rfl

end Sys2Proof
end

