-- ==== Sys2Proof/Laws/State.lean ====
section
/-! SUPPORT. The state updates, field by field: what each sets and what it leaves. -/

namespace Sys2Proof.Machine

variable (s : State)

/-! ### `setReg` -/

@[simp] theorem State.setReg_v (x : Reg) (b : Byte) : (s.setReg x b).v = s.v.set x b := rfl
@[simp] theorem State.setReg_i (x : Reg) (b : Byte) : (s.setReg x b).i = s.i := rfl
@[simp] theorem State.setReg_pc (x : Reg) (b : Byte) : (s.setReg x b).pc = s.pc := rfl
@[simp] theorem State.setReg_sp (x : Reg) (b : Byte) : (s.setReg x b).sp = s.sp := rfl
@[simp] theorem State.setReg_stack (x : Reg) (b : Byte) : (s.setReg x b).stack = s.stack := rfl
@[simp] theorem State.setReg_dt (x : Reg) (b : Byte) : (s.setReg x b).dt = s.dt := rfl
@[simp] theorem State.setReg_st (x : Reg) (b : Byte) : (s.setReg x b).st = s.st := rfl
@[simp] theorem State.setReg_fb (x : Reg) (b : Byte) : (s.setReg x b).fb = s.fb := rfl
@[simp] theorem State.setReg_status (x : Reg) (b : Byte) : (s.setReg x b).status = s.status := rfl
@[simp] theorem State.setReg_waitX (x : Reg) (b : Byte) : (s.setReg x b).waitX = s.waitX := rfl
@[simp] theorem State.setReg_err (x : Reg) (b : Byte) : (s.setReg x b).err = s.err := rfl
@[simp] theorem State.setReg_drew (x : Reg) (b : Byte) : (s.setReg x b).drew = s.drew := rfl
@[simp] theorem State.setReg_keys (x : Reg) (b : Byte) : (s.setReg x b).keys = s.keys := rfl
@[simp] theorem State.setReg_mem (x : Reg) (b : Byte) : (s.setReg x b).mem = s.mem := rfl
@[simp] theorem State.setReg_bootOpen (x : Reg) (b : Byte) : (s.setReg x b).bootOpen = s.bootOpen := rfl
@[simp] theorem State.setReg_config (x : Reg) (b : Byte) : (s.setReg x b).config = s.config := rfl
@[simp] theorem State.setReg_events (x : Reg) (b : Byte) : (s.setReg x b).events = s.events := rfl
@[simp] theorem State.setReg_rndInputs (x : Reg) (b : Byte) : (s.setReg x b).rndInputs = s.rndInputs := rfl
@[simp] theorem State.setReg_rndCount (x : Reg) (b : Byte) : (s.setReg x b).rndCount = s.rndCount := rfl

/-! ### `jump` -/

@[simp] theorem State.jump_v (a : Word) : (s.jump a).v = s.v := rfl
@[simp] theorem State.jump_i (a : Word) : (s.jump a).i = s.i := rfl
@[simp] theorem State.jump_pc (a : Word) : (s.jump a).pc = a := rfl
@[simp] theorem State.jump_sp (a : Word) : (s.jump a).sp = s.sp := rfl
@[simp] theorem State.jump_stack (a : Word) : (s.jump a).stack = s.stack := rfl
@[simp] theorem State.jump_dt (a : Word) : (s.jump a).dt = s.dt := rfl
@[simp] theorem State.jump_st (a : Word) : (s.jump a).st = s.st := rfl
@[simp] theorem State.jump_fb (a : Word) : (s.jump a).fb = s.fb := rfl
@[simp] theorem State.jump_status (a : Word) : (s.jump a).status = s.status := rfl
@[simp] theorem State.jump_waitX (a : Word) : (s.jump a).waitX = s.waitX := rfl
@[simp] theorem State.jump_err (a : Word) : (s.jump a).err = s.err := rfl
@[simp] theorem State.jump_drew (a : Word) : (s.jump a).drew = s.drew := rfl
@[simp] theorem State.jump_keys (a : Word) : (s.jump a).keys = s.keys := rfl
@[simp] theorem State.jump_mem (a : Word) : (s.jump a).mem = s.mem := rfl
@[simp] theorem State.jump_bootOpen (a : Word) : (s.jump a).bootOpen = s.bootOpen := rfl
@[simp] theorem State.jump_config (a : Word) : (s.jump a).config = s.config := rfl
@[simp] theorem State.jump_events (a : Word) : (s.jump a).events = s.events := rfl
@[simp] theorem State.jump_rndInputs (a : Word) : (s.jump a).rndInputs = s.rndInputs := rfl
@[simp] theorem State.jump_rndCount (a : Word) : (s.jump a).rndCount = s.rndCount := rfl

/-! ### `storeBytes` -/

@[simp] theorem State.storeBytes_v (a : Nat) (bs : List Byte) : (s.storeBytes a bs).v = s.v := rfl
@[simp] theorem State.storeBytes_i (a : Nat) (bs : List Byte) : (s.storeBytes a bs).i = s.i := rfl
@[simp] theorem State.storeBytes_pc (a : Nat) (bs : List Byte) : (s.storeBytes a bs).pc = s.pc := rfl
@[simp] theorem State.storeBytes_sp (a : Nat) (bs : List Byte) : (s.storeBytes a bs).sp = s.sp := rfl
@[simp] theorem State.storeBytes_stack (a : Nat) (bs : List Byte) : (s.storeBytes a bs).stack = s.stack := rfl
@[simp] theorem State.storeBytes_dt (a : Nat) (bs : List Byte) : (s.storeBytes a bs).dt = s.dt := rfl
@[simp] theorem State.storeBytes_st (a : Nat) (bs : List Byte) : (s.storeBytes a bs).st = s.st := rfl
@[simp] theorem State.storeBytes_fb (a : Nat) (bs : List Byte) : (s.storeBytes a bs).fb = s.fb := rfl
@[simp] theorem State.storeBytes_status (a : Nat) (bs : List Byte) : (s.storeBytes a bs).status = s.status := rfl
@[simp] theorem State.storeBytes_waitX (a : Nat) (bs : List Byte) : (s.storeBytes a bs).waitX = s.waitX := rfl
@[simp] theorem State.storeBytes_err (a : Nat) (bs : List Byte) : (s.storeBytes a bs).err = s.err := rfl
@[simp] theorem State.storeBytes_drew (a : Nat) (bs : List Byte) : (s.storeBytes a bs).drew = s.drew := rfl
@[simp] theorem State.storeBytes_keys (a : Nat) (bs : List Byte) : (s.storeBytes a bs).keys = s.keys := rfl
@[simp] theorem State.storeBytes_mem (a : Nat) (bs : List Byte) : (s.storeBytes a bs).mem = Memory.store (resetByte s.config) s.mem a bs := rfl
@[simp] theorem State.storeBytes_bootOpen (a : Nat) (bs : List Byte) : (s.storeBytes a bs).bootOpen = s.bootOpen := rfl
@[simp] theorem State.storeBytes_config (a : Nat) (bs : List Byte) : (s.storeBytes a bs).config = s.config := rfl
@[simp] theorem State.storeBytes_events (a : Nat) (bs : List Byte) : (s.storeBytes a bs).events = s.events := rfl
@[simp] theorem State.storeBytes_rndInputs (a : Nat) (bs : List Byte) : (s.storeBytes a bs).rndInputs = s.rndInputs := rfl
@[simp] theorem State.storeBytes_rndCount (a : Nat) (bs : List Byte) : (s.storeBytes a bs).rndCount = s.rndCount := rfl

/-! ### `raise` -/

@[simp] theorem State.raise_v (e : ErrKind) (op : Word) (a : Nat) : (s.raise e op a).v = s.v := rfl
@[simp] theorem State.raise_i (e : ErrKind) (op : Word) (a : Nat) : (s.raise e op a).i = s.i := rfl
@[simp] theorem State.raise_pc (e : ErrKind) (op : Word) (a : Nat) : (s.raise e op a).pc = s.pc := rfl
@[simp] theorem State.raise_sp (e : ErrKind) (op : Word) (a : Nat) : (s.raise e op a).sp = s.sp := rfl
@[simp] theorem State.raise_stack (e : ErrKind) (op : Word) (a : Nat) : (s.raise e op a).stack = s.stack := rfl
@[simp] theorem State.raise_dt (e : ErrKind) (op : Word) (a : Nat) : (s.raise e op a).dt = s.dt := rfl
@[simp] theorem State.raise_st (e : ErrKind) (op : Word) (a : Nat) : (s.raise e op a).st = s.st := rfl
@[simp] theorem State.raise_fb (e : ErrKind) (op : Word) (a : Nat) : (s.raise e op a).fb = s.fb := rfl
@[simp] theorem State.raise_status (e : ErrKind) (op : Word) (a : Nat) : (s.raise e op a).status = .halted := rfl
@[simp] theorem State.raise_waitX (e : ErrKind) (op : Word) (a : Nat) : (s.raise e op a).waitX = s.waitX := rfl
@[simp] theorem State.raise_err (e : ErrKind) (op : Word) (a : Nat) : (s.raise e op a).err = ⟨e, s.pc, op, BitVec.ofNat 17 a⟩ := rfl
@[simp] theorem State.raise_drew (e : ErrKind) (op : Word) (a : Nat) : (s.raise e op a).drew = false := rfl
@[simp] theorem State.raise_keys (e : ErrKind) (op : Word) (a : Nat) : (s.raise e op a).keys = s.keys := rfl
@[simp] theorem State.raise_mem (e : ErrKind) (op : Word) (a : Nat) : (s.raise e op a).mem = s.mem := rfl
@[simp] theorem State.raise_bootOpen (e : ErrKind) (op : Word) (a : Nat) : (s.raise e op a).bootOpen = s.bootOpen := rfl
@[simp] theorem State.raise_config (e : ErrKind) (op : Word) (a : Nat) : (s.raise e op a).config = s.config := rfl
@[simp] theorem State.raise_events (e : ErrKind) (op : Word) (a : Nat) : (s.raise e op a).events = s.events := rfl
@[simp] theorem State.raise_rndInputs (e : ErrKind) (op : Word) (a : Nat) : (s.raise e op a).rndInputs = s.rndInputs := rfl
@[simp] theorem State.raise_rndCount (e : ErrKind) (op : Word) (a : Nat) : (s.raise e op a).rndCount = s.rndCount := rfl

/-! ### `beginStep` -/

@[simp] theorem State.beginStep_v : (s.beginStep).v = s.v := rfl
@[simp] theorem State.beginStep_i : (s.beginStep).i = s.i := rfl
@[simp] theorem State.beginStep_pc : (s.beginStep).pc = s.pc := rfl
@[simp] theorem State.beginStep_sp : (s.beginStep).sp = s.sp := rfl
@[simp] theorem State.beginStep_stack : (s.beginStep).stack = s.stack := rfl
@[simp] theorem State.beginStep_dt : (s.beginStep).dt = s.dt := rfl
@[simp] theorem State.beginStep_st : (s.beginStep).st = s.st := rfl
@[simp] theorem State.beginStep_fb : (s.beginStep).fb = s.fb := rfl
@[simp] theorem State.beginStep_status : (s.beginStep).status = s.status := rfl
@[simp] theorem State.beginStep_waitX : (s.beginStep).waitX = s.waitX := rfl
@[simp] theorem State.beginStep_err : (s.beginStep).err = s.err := rfl
@[simp] theorem State.beginStep_drew : (s.beginStep).drew = false := rfl
@[simp] theorem State.beginStep_keys : (s.beginStep).keys = s.keys := rfl
@[simp] theorem State.beginStep_mem : (s.beginStep).mem = s.mem := rfl
@[simp] theorem State.beginStep_bootOpen : (s.beginStep).bootOpen = false := rfl
@[simp] theorem State.beginStep_config : (s.beginStep).config = s.config := rfl
@[simp] theorem State.beginStep_events : (s.beginStep).events = s.events := rfl
@[simp] theorem State.beginStep_rndInputs : (s.beginStep).rndInputs = s.rndInputs := rfl
@[simp] theorem State.beginStep_rndCount : (s.beginStep).rndCount = s.rndCount := rfl

/-! ### `dropRnd`: only the draws change -/

@[simp] theorem State.dropRnd_v : s.dropRnd.v = s.v := by unfold State.dropRnd; split <;> rfl
@[simp] theorem State.dropRnd_i : s.dropRnd.i = s.i := by unfold State.dropRnd; split <;> rfl
@[simp] theorem State.dropRnd_pc : s.dropRnd.pc = s.pc := by unfold State.dropRnd; split <;> rfl
@[simp] theorem State.dropRnd_sp : s.dropRnd.sp = s.sp := by unfold State.dropRnd; split <;> rfl
@[simp] theorem State.dropRnd_stack : s.dropRnd.stack = s.stack := by unfold State.dropRnd; split <;> rfl
@[simp] theorem State.dropRnd_dt : s.dropRnd.dt = s.dt := by unfold State.dropRnd; split <;> rfl
@[simp] theorem State.dropRnd_st : s.dropRnd.st = s.st := by unfold State.dropRnd; split <;> rfl
@[simp] theorem State.dropRnd_fb : s.dropRnd.fb = s.fb := by unfold State.dropRnd; split <;> rfl
@[simp] theorem State.dropRnd_status : s.dropRnd.status = s.status := by unfold State.dropRnd; split <;> rfl
@[simp] theorem State.dropRnd_waitX : s.dropRnd.waitX = s.waitX := by unfold State.dropRnd; split <;> rfl
@[simp] theorem State.dropRnd_err : s.dropRnd.err = s.err := by unfold State.dropRnd; split <;> rfl
@[simp] theorem State.dropRnd_drew : s.dropRnd.drew = s.drew := by unfold State.dropRnd; split <;> rfl
@[simp] theorem State.dropRnd_keys : s.dropRnd.keys = s.keys := by unfold State.dropRnd; split <;> rfl
@[simp] theorem State.dropRnd_mem : s.dropRnd.mem = s.mem := by unfold State.dropRnd; split <;> rfl
@[simp] theorem State.dropRnd_bootOpen : s.dropRnd.bootOpen = s.bootOpen := by unfold State.dropRnd; split <;> rfl
@[simp] theorem State.dropRnd_config : s.dropRnd.config = s.config := by unfold State.dropRnd; split <;> rfl
@[simp] theorem State.dropRnd_events : s.dropRnd.events = s.events := by unfold State.dropRnd; split <;> rfl

/-! ### The derived updates are made of those -/

theorem State.advance_eq : s.advance = s.jump (s.pc + 2) := rfl
theorem State.skipIf_eq (c : Bool) : s.skipIf c = s.jump (if c then s.pc + 4 else s.pc + 2) := rfl
theorem State.setWithFlag_eq (x : Reg) (r : Byte) (f : Bool) :
    s.setWithFlag x r f = (s.setReg x r).setReg VF (flag f) := rfl

/-! ### Registers -/

@[simp] theorem State.setReg_reg (x y : Reg) (b : Byte) : (s.setReg x b).reg y = if y = x then b else s.reg y := by
  simp only [State.reg, State.setReg, Fin.getElem_fin, Vector.getElem_set, Fin.ext_iff, eq_comm]

@[simp] theorem State.jump_reg (a : Word) (y : Reg) : (s.jump a).reg y = s.reg y := rfl
@[simp] theorem State.storeBytes_reg (a : Nat) (bs : List Byte) (y : Reg) : (s.storeBytes a bs).reg y = s.reg y := rfl
@[simp] theorem State.raise_reg (e : ErrKind) (op : Word) (a : Nat) (y : Reg) : (s.raise e op a).reg y = s.reg y := rfl
@[simp] theorem State.beginStep_reg (y : Reg) : s.beginStep.reg y = s.reg y := rfl
@[simp] theorem State.dropRnd_reg (y : Reg) : s.dropRnd.reg y = s.reg y := by simp [State.reg]

theorem State.reg_eq_getElem (y : Reg) : s.reg y = s.v[y] := rfl

/-- Two register files are equal when every register reads alike. -/
theorem regs_ext {v w : Vector Byte 16} (h : ∀ r : Reg, v[r] = w[r]) : v = w :=
  Vector.ext fun k hk => h ⟨k, hk⟩

/-! ### Memory reads -/

@[simp] theorem State.setReg_readByte (x : Reg) (b : Byte) (a : Nat) : (s.setReg x b).readByte a = s.readByte a := rfl
@[simp] theorem State.jump_readByte (t : Word) (a : Nat) : (s.jump t).readByte a = s.readByte a := rfl
@[simp] theorem State.raise_readByte (e : ErrKind) (op : Word) (b a : Nat) : (s.raise e op b).readByte a = s.readByte a := rfl
@[simp] theorem State.beginStep_readByte (a : Nat) : s.beginStep.readByte a = s.readByte a := rfl
@[simp] theorem State.dropRnd_readByte (a : Nat) : s.dropRnd.readByte a = s.readByte a := by simp [State.readByte]

/-- Reading depends on memory and the font parameters only. -/
theorem State.readByte_congr {s t : State} (hm : t.mem = s.mem) (hc : t.config = s.config) (a : Nat) :
    t.readByte a = s.readByte a := by simp [State.readByte, hm, hc]

theorem State.readBytes_congr {s t : State} (hm : t.mem = s.mem) (hc : t.config = s.config) (a n : Nat) :
    t.readBytes a n = s.readBytes a n := by
  induction n generalizing a with
  | zero => rfl
  | succ n ih => simp only [State.readBytes, ih, State.readByte_congr hm hc]

@[simp] theorem State.readBytes_length (a n : Nat) : (s.readBytes a n).length = n := by
  induction n generalizing a with
  | zero => rfl
  | succ n ih => simp [State.readBytes, ih]

theorem State.readBytes_getElem? (a n k : Nat) (h : k < n) : (s.readBytes a n)[k]? = some (s.readByte (a + k)) := by
  induction n generalizing a k with
  | zero => omega
  | succ n ih =>
    cases k with
    | zero => rfl
    | succ k => simp only [State.readBytes, List.getElem?_cons_succ, ih (a + 1) k (by omega)]; congr 2; omega

/-! ### Reset -/

@[simp] theorem State.afterReset_config : s.afterReset.config = s.config := rfl
@[simp] theorem State.afterReset_keys : s.afterReset.keys = s.keys := rfl
@[simp] theorem State.afterReset_events : s.afterReset.events = s.events := rfl
@[simp] theorem State.afterReset_mem : s.afterReset.mem = [] := rfl
@[simp] theorem State.afterReset_pc : s.afterReset.pc = 0x200 := rfl
@[simp] theorem State.afterReset_status : s.afterReset.status = .running := rfl
@[simp] theorem State.afterReset_err : s.afterReset.err = ErrLatch.clear := rfl
@[simp] theorem State.afterReset_bootOpen : s.afterReset.bootOpen = true := rfl
@[simp] theorem State.afterReset_afterReset : s.afterReset.afterReset = s.afterReset := rfl
@[simp] theorem State.afterReset_readByte (a : Nat) : s.afterReset.readByte a = resetByte s.config a := rfl

end Sys2Proof.Machine
end

