-- ==== Sys2Proof/Laws/Memory.lean ====
section
/-! SUPPORT. Memory: read after write, and that every operation keeps the canonical form. -/

namespace Sys2Proof.Machine

variable (bg : Nat → Byte)

/-- Every cell's address is above `a`: what the tail of a canonical memory looks like from its head. -/
theorem Memory.read_eq_bg_of_lt {m : Memory} {a : Nat} (h : ∀ c ∈ m, a < c.1) : Memory.read bg m a = bg a := by
  induction m with
  | nil => rfl
  | cons c m ih =>
    have hc := h c (by simp)
    simp only [Memory.read, if_neg (Nat.ne_of_lt hc)]
    exact ih fun d hd => h d (by simp [hd])

theorem Memory.wf_nil : Memory.wf bg [] = true := by simp [Memory.wf]

/-- The canonical form, cell by cell. -/
theorem Memory.wf_cons (c : Host.Cell) (m : Memory) :
    Memory.wf bg (c :: m) = true ↔
      (∀ d ∈ m, c.1 < d.1) ∧ c.1 < memSize ∧ c.2 ≠ bg c.1 ∧ Memory.wf bg m = true := by
  simp only [Memory.wf, List.pairwise_cons, List.all_cons, Bool.and_eq_true, decide_eq_true_eq]
  tauto

/-- A write changes no other address, whatever the memory. -/
theorem Memory.read_write_other (m : Memory) (a : Nat) (b : Byte) {q : Nat} (hq : q ≠ a) :
    Memory.read bg (Memory.write bg m a b) q = Memory.read bg m q := by
  induction m with
  | nil => by_cases hb : b = bg a <;> simp [Memory.write, Memory.read, hb, hq]
  | cons c m ih =>
    obtain ⟨k, x⟩ := c
    rcases Nat.lt_trichotomy a k with h | rfl | h
    · by_cases hb : b = bg a <;> simp [Memory.write, Memory.read, h, hb, hq]
    · by_cases hb : b = bg a <;> simp [Memory.write, Memory.read, hb, hq]
    · simp [Memory.write, Memory.read, Nat.lt_asymm h, Nat.ne_of_gt h, ih]

/-- The written byte reads back, on a memory whose addresses rise. -/
theorem Memory.read_write_same {m : Memory} (h : Memory.wf bg m = true) (a : Nat) (b : Byte) :
    Memory.read bg (Memory.write bg m a b) a = b := by
  induction m with
  | nil => by_cases hb : b = bg a <;> simp [Memory.write, Memory.read, hb]
  | cons c m ih =>
    obtain ⟨k, x⟩ := c
    obtain ⟨hlt, -, -, hm⟩ := (Memory.wf_cons bg _ _).1 h
    rcases Nat.lt_trichotomy a k with h | rfl | h
    · by_cases hb : b = bg a
      · have htail := Memory.read_eq_bg_of_lt bg (m := m) (a := a) fun d hd => h.trans (hlt d hd)
        simp [Memory.write, Memory.read, h, hb, Nat.ne_of_lt h, htail]
      · simp [Memory.write, Memory.read, h, hb]
    · by_cases hb : b = bg a
      · simp [Memory.write, hb, Memory.read_eq_bg_of_lt bg hlt]
      · simp [Memory.write, Memory.read, hb]
    · simp [Memory.write, Memory.read, Nat.lt_asymm h, Nat.ne_of_gt h, ih hm]

/-- Read after write, on a memory in canonical form. -/
theorem Memory.read_write {m : Memory} (h : Memory.wf bg m = true) (a : Nat) (b : Byte) (q : Nat) :
    Memory.read bg (Memory.write bg m a b) q = if q = a then b else Memory.read bg m q := by
  split
  · subst_vars; exact Memory.read_write_same bg h _ _
  · exact Memory.read_write_other bg m a b ‹_›

/-- A cell of the written memory is the written one or an old one. -/
theorem Memory.mem_write {m : Memory} {a : Nat} {b : Byte} {d : Host.Cell} (h : d ∈ Memory.write bg m a b) :
    d = (a, b) ∨ d ∈ m := by
  induction m with
  | nil => by_cases hb : b = bg a <;> simp_all [Memory.write]
  | cons c m ih =>
    obtain ⟨k, x⟩ := c
    simp only [Memory.write] at h
    split_ifs at h <;> simp only [List.mem_cons] at h ⊢ <;> tauto

/-- A write below 0x1000 keeps the canonical form. -/
theorem Memory.wf_write {m : Memory} (h : Memory.wf bg m = true) {a : Nat} (ha : a < memSize) (b : Byte) :
    Memory.wf bg (Memory.write bg m a b) = true := by
  induction m with
  | nil =>
    by_cases hb : b = bg a
    · simp [Memory.write, hb, Memory.wf_nil]
    · simp only [Memory.write, if_neg hb]
      exact (Memory.wf_cons bg _ _).2 ⟨by simp, ha, hb, Memory.wf_nil bg⟩
  | cons c m ih =>
    obtain ⟨k, x⟩ := c
    obtain ⟨hlt, hk, hx, hm⟩ := (Memory.wf_cons bg _ _).1 h
    simp only [Memory.write]
    split_ifs with h1 h2 h2 h3
    · exact h
    · refine (Memory.wf_cons bg _ _).2 ⟨fun d hd => ?_, ha, h2, h⟩
      rcases List.mem_cons.1 hd with rfl | hd
      · exact h1
      · exact h1.trans (hlt d hd)
    · exact hm
    · exact (Memory.wf_cons bg _ _).2 ⟨by subst h2; exact hlt, ha, h3, hm⟩
    · refine (Memory.wf_cons bg _ _).2 ⟨fun d hd => ?_, hk, hx, ih hm⟩
      rcases Memory.mem_write bg hd with rfl | hd
      · show k < a; omega
      · exact hlt d hd

/-- A store inside 0x000..0xFFF keeps the canonical form. -/
theorem Memory.wf_store {m : Memory} (h : Memory.wf bg m = true) (bs : List Byte) {a : Nat}
    (ha : a + bs.length ≤ memSize) : Memory.wf bg (Memory.store bg m a bs) = true := by
  induction bs generalizing a with
  | nil => exact h
  | cons b bs ih =>
    simp only [List.length_cons] at ha
    exact Memory.wf_write bg (ih (by omega)) (by omega) b

/-- Read after store: the stored byte inside, the old byte outside. -/
theorem Memory.read_store {m : Memory} (h : Memory.wf bg m = true) (bs : List Byte) {a : Nat}
    (ha : a + bs.length ≤ memSize) (q : Nat) :
    Memory.read bg (Memory.store bg m a bs) q =
      if a ≤ q ∧ q < a + bs.length then bs.getD (q - a) 0 else Memory.read bg m q := by
  induction bs generalizing a with
  | nil => simp only [Memory.store, List.length_nil, Nat.add_zero]; rw [if_neg (by omega)]
  | cons b bs ih =>
    simp only [List.length_cons] at ha
    rw [Memory.store, Memory.read_write bg (Memory.wf_store bg h bs (by omega)), ih (by omega)]
    simp only [List.length_cons]
    by_cases hq : q = a
    · subst hq; simp
    · rw [if_neg hq]
      by_cases hin : a + 1 ≤ q ∧ q < a + 1 + bs.length
      · rw [if_pos hin, if_pos (by omega)]
        obtain ⟨j, rfl⟩ : ∃ j, q = a + 1 + j := ⟨q - (a + 1), by omega⟩
        have h1 : a + 1 + j - (a + 1) = j := by omega
        have h2 : a + 1 + j - a = j + 1 := by omega
        rw [h1, h2, List.getD_cons_succ]
      · rw [if_neg hin, if_neg (by omega)]

/-- Outside the stored bytes a store changes no byte, whatever the memory. -/
theorem Memory.read_store_other (m : Memory) (bs : List Byte) {a q : Nat} (hq : ¬ (a ≤ q ∧ q < a + bs.length)) :
    Memory.read bg (Memory.store bg m a bs) q = Memory.read bg m q := by
  induction bs generalizing a with
  | nil => rfl
  | cons b bs ih =>
    simp only [List.length_cons] at hq
    rw [Memory.store, Memory.read_write_other bg _ _ _ (by omega), ih (by omega)]

variable (s : State)

theorem State.memOk_storeBytes (h : s.memOk) (bs : List Byte) {a : Nat} (ha : a + bs.length ≤ memSize) :
    (s.storeBytes a bs).memOk := Memory.wf_store _ h bs ha

theorem State.readByte_storeBytes (h : s.memOk) (bs : List Byte) {a : Nat} (ha : a + bs.length ≤ memSize) (q : Nat) :
    (s.storeBytes a bs).readByte q = if a ≤ q ∧ q < a + bs.length then bs.getD (q - a) 0 else s.readByte q :=
  Memory.read_store _ h bs ha q

theorem State.readByte_storeBytes_other (bs : List Byte) {a q : Nat} (hq : ¬ (a ≤ q ∧ q < a + bs.length)) :
    (s.storeBytes a bs).readByte q = s.readByte q := Memory.read_store_other _ _ bs hq

theorem State.afterReset_memOk : s.afterReset.memOk := Memory.wf_nil _

end Sys2Proof.Machine
end

