-- ==== Sys2Proof/Laws/Ops.lean ====
section
/-! SUPPORT. What each shared operation can do, said once. -/

namespace Sys2Proof.Machine

variable (s : State)

/-! ### The address check (R73, R74) -/

theorem firstOutOfRange_eq_none {a n : Nat} : firstOutOfRange a n = none ↔ n = 0 ∨ a + n ≤ memSize := by
  unfold firstOutOfRange; split <;> simp_all

theorem firstOutOfRange_eq_some {a n b : Nat} :
    firstOutOfRange a n = some b ↔ n ≠ 0 ∧ memSize < a + n ∧ b = max a memSize := by
  unfold firstOutOfRange
  split
  · simp; omega
  · simp [eq_comm]; omega

/-- An access whose bytes are all in range. -/
theorem State.access_ok {i : Instr} {a n : Nat} (h : n = 0 ∨ a + n ≤ memSize) (ok : State) :
    s.access i a n ok = .next ok := by
  rw [State.access, firstOutOfRange_eq_none.2 h]

/-- An access with a byte out of range. -/
theorem State.access_bad {i : Instr} {a n : Nat} (hn : n ≠ 0) (h : memSize < a + n) (ok : State) :
    s.access i a n ok = .next (s.raise .outOfBounds (encode i) (max a memSize)) := by
  rw [State.access, firstOutOfRange_eq_some.2 ⟨hn, h, rfl⟩]

/-- An access goes on to `ok` or raises `OutOfBounds`, and nothing else. -/
theorem State.access_cases {i : Instr} {a n : Nat} {ok t : State} (h : s.access i a n ok = .next t) :
    ((n = 0 ∨ a + n ≤ memSize) ∧ t = ok) ∨
    (n ≠ 0 ∧ memSize < a + n ∧ t = s.raise .outOfBounds (encode i) (max a memSize)) := by
  by_cases hr : n = 0 ∨ a + n ≤ memSize
  · rw [State.access_ok s hr] at h; exact .inl ⟨hr, by injection h with h; exact h.symm⟩
  · rw [State.access_bad s (by omega) (by omega)] at h
    exact .inr ⟨by omega, by omega, by injection h with h; exact h.symm⟩

/-! ### The fatal error (R305) -/

/-- What a raise leaves, in the words of `Halts`. -/
theorem halts_raise (e : ErrKind) (op : Word) {a : Nat} (ha : a < 2 ^ 17) : Halts (.next (s.raise e op a)) s e op a :=
  ⟨_, rfl, rfl, rfl, rfl, rfl, by simpa using Nat.mod_eq_of_lt ha, fun _ => rfl, rfl⟩

/-! ### The stack (R46) -/

theorem State.push_full (h : s.sp.val = 16) (w : Word) : s.push w = none := by
  rw [State.push, dif_neg (by omega)]

theorem State.push_ok (h : s.sp.val < 16) (w : Word) :
    s.push w = some { s with stack := s.stack.set s.sp.val w, sp := ⟨s.sp.val + 1, by omega⟩ } := by
  rw [State.push, dif_pos h]

theorem State.pop_empty (h : s.sp.val = 0) : s.pop = none := by
  rw [State.pop, dif_neg (by omega)]

theorem State.pop_ok (h : 0 < s.sp.val) :
    s.pop = some (s.stack[s.sp.val - 1], { s with sp := ⟨s.sp.val - 1, by omega⟩ }) := by
  rw [State.pop, dif_pos h]

/-- A push succeeds below depth 16 and gives none at 16. -/
theorem State.push_cases (w : Word) :
    (s.sp.val = 16 ∧ s.push w = none) ∨
    ∃ h : s.sp.val < 16,
      s.push w = some { s with stack := s.stack.set s.sp.val w, sp := ⟨s.sp.val + 1, by omega⟩ } := by
  by_cases h : s.sp.val < 16
  · exact .inr ⟨h, s.push_ok h w⟩
  · exact .inl ⟨by omega, s.push_full (by omega) w⟩

/-- A pop succeeds above depth 0 and gives none at 0. -/
theorem State.pop_cases :
    (s.sp.val = 0 ∧ s.pop = none) ∨
    ∃ h : 0 < s.sp.val, s.pop = some (s.stack[s.sp.val - 1], { s with sp := ⟨s.sp.val - 1, by omega⟩ }) := by
  by_cases h : 0 < s.sp.val
  · exact .inr ⟨h, s.pop_ok h⟩
  · exact .inl ⟨by omega, s.pop_empty (by omega)⟩

/-! ### The random draw (log 1) -/

theorem State.nextRnd_ready {d : Byte} {ds : List Byte} (h : s.rndInputs = d :: ds) :
    s.nextRnd = d ∧ s.dropRnd = { s with rndInputs := ds } := by simp [State.nextRnd, State.dropRnd, h]

theorem State.nextRnd_free (h : s.rndInputs = []) :
    s.nextRnd = Config.rnd s.rndCount ∧ s.dropRnd = { s with rndCount := s.rndCount + 1 } := by
  simp [State.nextRnd, State.dropRnd, h]

/-! ### Registers with a flag (R14, D4) -/

theorem State.setWithFlag_vf (x : Reg) (r : Byte) (f : Bool) : (s.setWithFlag x r f).reg VF = flag f := by
  simp [State.setWithFlag_eq]

theorem State.setWithFlag_dest {x : Reg} (hx : x ≠ VF) (r : Byte) (f : Bool) : (s.setWithFlag x r f).reg x = r := by
  simp [State.setWithFlag_eq, hx]

/-- Setting registers of `rs` and advancing is what `OnlyRegs` says. -/
theorem onlyRegs_of_v {rs : List Reg} {t : State} (h : t = { s with v := t.v, pc := s.pc + 2 })
    (hr : ∀ r, r ∉ rs → t.reg r = s.reg r) : OnlyRegs rs s t := by
  have hpc : t.pc = s.pc + 2 := by rw [h]
  exact ⟨hpc, hr, fun _ => by rw [h]; rfl, by rw [hpc]; exact h⟩

theorem onlyRegs_setReg (x : Reg) (b : Byte) : OnlyRegs [x] s (s.setReg x b).advance :=
  onlyRegs_of_v s rfl fun r hr => by simp only [List.mem_singleton] at hr; simp [State.advance_eq, hr]

theorem onlyRegs_setWithFlag (x : Reg) (r : Byte) (f : Bool) : OnlyRegs [x, VF] s (s.setWithFlag x r f).advance :=
  onlyRegs_of_v s rfl fun q hq => by
    simp only [List.mem_cons, List.not_mem_nil, or_false, not_or] at hq
    simp [State.advance_eq, State.setWithFlag_eq, hq.1, hq.2]

theorem flag_toNat (b : Bool) : (flag b).toNat = if b then 1 else 0 := by cases b <;> rfl

/-! ### The register block of FX55 and FX65 (R204, R205) -/

@[simp] theorem State.regsUpTo_length (x : Reg) : (s.regsUpTo x).length = x.val + 1 := by
  simp [State.regsUpTo]

theorem State.regsUpTo_getD {x k : Reg} (h : k ≤ x) : (s.regsUpTo x).getD k.val 0 = s.reg k := by
  have h' : k.val ≤ x.val := h
  simp only [State.regsUpTo, State.reg, List.getD_eq_getElem?_getD, List.getElem?_take]
  rw [if_pos (by omega)]; simp

theorem State.loadRegs_getElem (x k : Reg) :
    (s.loadRegs x)[k] = if k ≤ x then s.readByte (s.i.toNat + k.val) else s.reg k := by
  simp [State.loadRegs]

/-! ### The fetch (R76) -/

theorem State.fetch_ok (h : s.pc.toNat ≤ 0xFFE) : s.fetch = .ok s.fetchedWord := by
  rw [State.fetch, firstOutOfRange_eq_none.2 (by simp only [memSize]; omega)]

theorem State.fetch_bad (h : 0xFFE < s.pc.toNat) : s.fetch = .error (max s.pc.toNat memSize) := by
  rw [State.fetch, firstOutOfRange_eq_some.2 ⟨by decide, by simp only [memSize]; omega, rfl⟩]

end Sys2Proof.Machine
end

