-- ==== Sys2Proof/Laws/Display.lean ====
section
/-! SUPPORT. Drawing as toggling a list of cells: what a toggle does, and what a list of distinct cells does. -/

namespace Sys2Proof.Machine

/-- Two framebuffers are equal when every pixel is. -/
theorem Framebuffer.ext {f g : Framebuffer} (h : ∀ y x, f.pixel y x = g.pixel y x) : f = g := by
  apply Vector.ext
  intro y hy
  apply BitVec.eq_of_getLsbD_eq
  intro x hx
  exact h ⟨y, hy⟩ ⟨x, hx⟩

theorem Framebuffer.pixel_blank (y : Fin 32) (x : Fin 64) : Framebuffer.blank.pixel y x = false := by
  simp [Framebuffer.blank, Framebuffer.pixel]

/-- A toggle flips its cell and no other. -/
theorem Framebuffer.pixel_toggle (f : Framebuffer) (y y' : Fin 32) (x x' : Fin 64) :
    (f.toggle y x).pixel y' x' = (f.pixel y' x' ^^ decide (y' = y ∧ x' = x)) := by
  simp only [Framebuffer.pixel, Framebuffer.toggle, Fin.getElem_fin, Vector.getElem_set]
  by_cases hy : y' = y
  · subst hy
    simp only [if_true, BitVec.getLsbD_xor, true_and, BitVec.getLsbD_twoPow]
    congr 1
    simp [Fin.ext_iff, eq_comm]
  · have : ¬ (y.val = y'.val) := fun h => hy (Fin.ext h.symm)
    simp [this, hy]

/-- A cell of the framebuffer: row and column. -/
abbrev Cell := Fin 32 × Fin 64

/-- Toggling one cell of a canvas. -/
def Canvas.plotCell (w : Canvas) (p : Cell) : Canvas :=
  { fb := w.fb.toggle p.1 p.2, collision := w.collision || w.fb.pixel p.1 p.2 }

theorem Canvas.plot_eq_plotCell (x0 y0 r c : Nat) (w : Canvas) :
    w.plot x0 y0 r c = w.plotCell (Fin.ofNat 32 (y0 + r), Fin.ofNat 64 (x0 + c)) := rfl

/-- The cells of one row's bits of 1, columns `8 - fuel` to 7 (R231, R232). -/
def rowCells (x0 y0 r : Nat) (row : Byte) : Nat → List Cell
  | 0 => []
  | fuel + 1 =>
    let rest := rowCells x0 y0 r row fuel
    if row.getLsbD (7 - (7 - fuel)) then (Fin.ofNat 32 (y0 + r), Fin.ofNat 64 (x0 + (7 - fuel))) :: rest else rest

/-- The cells of a sprite's bits of 1, rows from `r` on. -/
def spriteCells (x0 y0 : Nat) : Nat → List Byte → List Cell
  | _, [] => []
  | r, row :: rows => rowCells x0 y0 r row 8 ++ spriteCells x0 y0 (r + 1) rows

theorem Canvas.drawRow_eq (x0 y0 r : Nat) (row : Byte) (fuel : Nat) (w : Canvas) :
    w.drawRow x0 y0 r row fuel = (rowCells x0 y0 r row fuel).foldl Canvas.plotCell w := by
  induction fuel generalizing w with
  | zero => rfl
  | succ fuel ih =>
    simp only [Canvas.drawRow, rowCells]
    split
    · rw [List.foldl_cons, ih]; rfl
    · rw [ih]

/-- The loop of DXYN toggles the cells of the sprite, in order. -/
theorem Canvas.drawRows_eq (x0 y0 r : Nat) (rows : List Byte) (w : Canvas) :
    w.drawRows x0 y0 r rows = (spriteCells x0 y0 r rows).foldl Canvas.plotCell w := by
  induction rows generalizing r w with
  | nil => rfl
  | cons row rows ih => rw [Canvas.drawRows, spriteCells, List.foldl_append, ih, Canvas.drawRow_eq]

/-- Toggling distinct cells flips exactly them. -/
theorem Canvas.pixel_foldl_plotCell {l : List Cell} (hl : l.Nodup) (w : Canvas) (y : Fin 32) (x : Fin 64) :
    (l.foldl Canvas.plotCell w).fb.pixel y x = (w.fb.pixel y x ^^ decide ((y, x) ∈ l)) := by
  induction l generalizing w with
  | nil => simp
  | cons p l ih =>
    obtain ⟨hp, hl⟩ := List.nodup_cons.1 hl
    rw [List.foldl_cons, ih hl, Canvas.plotCell, Framebuffer.pixel_toggle, Bool.xor_assoc]
    congr 1
    by_cases h : (y, x) = p
    · subst h; simp [hp]
    · have : ¬ (y = p.1 ∧ x = p.2) := fun e => h (Prod.ext e.1 e.2)
      simp [h, this]

/-- Toggling distinct cells collides if one of them was on. -/
theorem Canvas.collision_foldl_plotCell {l : List Cell} (hl : l.Nodup) (w : Canvas) :
    (l.foldl Canvas.plotCell w).collision = true ↔
      w.collision = true ∨ ∃ p ∈ l, w.fb.pixel p.1 p.2 = true := by
  induction l generalizing w with
  | nil => simp
  | cons p l ih =>
    obtain ⟨hp, hl⟩ := List.nodup_cons.1 hl
    have hpix : ∀ q ∈ l, (w.plotCell p).fb.pixel q.1 q.2 = w.fb.pixel q.1 q.2 := by
      intro q hq
      have hne : ¬ (q.1 = p.1 ∧ q.2 = p.2) := fun e => hp (Prod.ext e.1 e.2 ▸ hq)
      simp [Canvas.plotCell, Framebuffer.pixel_toggle, hne]
    rw [List.foldl_cons, ih hl]
    constructor
    · rintro (h | ⟨q, hq, h⟩)
      · simp only [Canvas.plotCell, Bool.or_eq_true] at h
        exact h.imp id fun h => ⟨p, by simp, h⟩
      · exact .inr ⟨q, by simp [hq], by rwa [hpix q hq] at h⟩
    · rintro (h | ⟨q, hq, h⟩)
      · exact .inl (by simp [Canvas.plotCell, h])
      · rcases List.mem_cons.1 hq with rfl | hq
        · exact .inl (by simp [Canvas.plotCell, h])
        · exact .inr ⟨q, hq, by rwa [hpix q hq]⟩

/-! ### Which cells a sprite covers (R231, R232) -/

/-- A row covers the cells of its bits of 1. -/
theorem mem_rowCells (x0 y0 r : Nat) (row : Byte) (fuel : Nat) (hf : fuel ≤ 8) (y : Fin 32) (x : Fin 64) :
    (y, x) ∈ rowCells x0 y0 r row fuel ↔
      y.val = (y0 + r) % 32 ∧ ∃ c, 8 - fuel ≤ c ∧ c < 8 ∧ row.getLsbD (7 - c) = true ∧ x.val = (x0 + c) % 64 := by
  induction fuel with
  | zero => simp [rowCells]; omega
  | succ fuel ih =>
    have key : (∃ c, 8 - (fuel+1) ≤ c ∧ c < 8 ∧ row.getLsbD (7 - c) = true ∧ x.val = (x0 + c) % 64) ↔
       (row.getLsbD (7 - (7 - fuel)) = true ∧ x.val = (x0 + (7 - fuel)) % 64) ∨
       (∃ c, 8 - fuel ≤ c ∧ c < 8 ∧ row.getLsbD (7 - c) = true ∧ x.val = (x0 + c) % 64) := by
      constructor
      · rintro ⟨c, h1, h2, h3, h4⟩
        by_cases hc : c = 7 - fuel
        · subst hc; exact .inl ⟨h3, h4⟩
        · exact .inr ⟨c, by omega, h2, h3, h4⟩
      · rintro (⟨h3, h4⟩ | ⟨c, h1, h2, h3, h4⟩)
        · exact ⟨7 - fuel, by omega, by omega, h3, h4⟩
        · exact ⟨c, by omega, h2, h3, h4⟩
    rw [key, rowCells]
    have ih := ih (by omega)
    split
    · rename_i hb
      rw [List.mem_cons, ih, Prod.mk.injEq, Fin.ext_iff, Fin.ext_iff]
      simp only [Fin.val_ofNat, hb, true_and]
      rw [← and_or_left]
    · rename_i hb
      rw [ih]; simp [hb]

/-- A sprite covers the cells of its rows' bits of 1. -/
theorem mem_spriteCells (x0 y0 r : Nat) (rows : List Byte) (y : Fin 32) (x : Fin 64) :
    (y, x) ∈ spriteCells x0 y0 r rows ↔
      ∃ k c, k < rows.length ∧ c < 8 ∧ (rows.getD k 0).getLsbD (7 - c) = true ∧ y.val = (y0 + (r + k)) % 32 ∧ x.val = (x0 + c) % 64 := by
  induction rows generalizing r with
  | nil => simp [spriteCells]
  | cons row rows ih =>
    rw [spriteCells, List.mem_append, ih, mem_rowCells _ _ _ _ _ (by omega)]
    constructor
    · rintro (⟨h1, c, _, h2, h3, h4⟩ | ⟨k, c, h1, h2, h3, h4, h5⟩)
      · exact ⟨0, c, by simp, h2, h3, by simpa using h1, h4⟩
      · exact ⟨k+1, c, by simpa using h1, h2, by simpa using h3, by rw [h4]; congr 1; omega, h5⟩
    · rintro ⟨k, c, h1, h2, h3, h4, h5⟩
      cases k with
      | zero => exact .inl ⟨by simpa using h4, c, by omega, h2, h3, h5⟩
      | succ k => exact .inr ⟨k, c, by simpa using h1, h2, by simpa using h3, by rw [h4]; congr 1; omega, h5⟩

theorem rowCells_nodup (x0 y0 r : Nat) (row : Byte) (fuel : Nat) (hf : fuel ≤ 8) : (rowCells x0 y0 r row fuel).Nodup := by
  induction fuel with
  | zero => simp [rowCells]
  | succ fuel ih =>
    rw [rowCells]
    split
    · rw [List.nodup_cons]
      refine ⟨?_, ih (by omega)⟩
      rw [mem_rowCells _ _ _ _ _ (by omega)]
      rintro ⟨_, c, h1, h2, _, h4⟩
      simp only [Fin.val_ofNat] at h4
      omega
    · exact ih (by omega)

/-- The pixels of one sprite land on distinct cells: 8 < 64 and 15 < 32 (R231). -/
theorem spriteCells_nodup (x0 y0 r : Nat) (rows : List Byte) (h : rows.length ≤ 32) : (spriteCells x0 y0 r rows).Nodup := by
  induction rows generalizing r with
  | nil => simp [spriteCells]
  | cons row rows ih =>
    simp at h
    rw [spriteCells, List.nodup_append]
    refine ⟨rowCells_nodup _ _ _ _ _ (by omega), ih _ (by omega), ?_⟩
    rintro ⟨y, x⟩ h1 ⟨y', x'⟩ h2 e
    cases e
    rw [mem_rowCells _ _ _ _ _ (by omega)] at h1
    rw [mem_spriteCells] at h2
    obtain ⟨k, c, hk, _, _, h4, _⟩ := h2
    have := h1.1
    omega

/-- The covered cells are those `spriteBit` names. -/
theorem decide_mem_spriteCells (s : State) (x0 y0 n : Nat) (hn : n ≤ 15) (y : Fin 32) (x : Fin 64) :
    decide ((y, x) ∈ spriteCells x0 y0 0 (s.readBytes s.i.toNat n)) = spriteBit s x0 y0 n y x := by
  rw [Bool.eq_iff_iff, decide_eq_true_iff, mem_spriteCells]
  have hg : ∀ k, k < n → (s.readBytes s.i.toNat n).getD k 0 = s.readByte (s.i.toNat + k) := by
    intro k hk; rw [List.getD_eq_getElem?_getD, s.readBytes_getElem? _ _ _ hk]; rfl
  simp only [spriteBit, Bool.and_eq_true, decide_eq_true_eq, State.readBytes_length]
  have := y.isLt; have := x.isLt
  constructor
  · rintro ⟨k, c, hk, hc, hb, hy, hx⟩
    rw [hg k hk] at hb
    have e1 : (y.val + 32 - y0 % 32) % 32 = k := by omega
    have e2 : (x.val + 64 - x0 % 64) % 64 = c := by omega
    rw [e1, e2]; exact ⟨⟨hk, hc⟩, hb⟩
  · rintro ⟨⟨hk, hc⟩, hb⟩
    refine ⟨_, _, hk, hc, ?_, by omega, by omega⟩
    rw [hg _ hk]; exact hb

end Sys2Proof.Machine
end

