-- ==== Sys2Proof/Laws/Step.lean ====
section
/-! SUPPORT. What a `Step`, an event and a step of the machine can do, said once. -/

namespace Sys2Proof.Machine

variable {s t : State}

@[simp] theorem State.beginStep_fetchedWord (s : State) : s.beginStep.fetchedWord = s.fetchedWord := rfl

theorem cycle_exec {i : Instr} (h : s.pc.toNat ≤ 0xFFE) (hd : decodeWord s.fetchedWord = .ok i) :
    cycle s = exec i s := by
  simp only [cycle, s.fetch_ok h, hd]

theorem cycle_outOfRange (h : 0xFFE < s.pc.toNat) :
    cycle s = .next (s.raise .outOfBounds 0 (max s.pc.toNat memSize)) := by
  simp only [cycle, s.fetch_bad h]

theorem cycle_illegal {e : DecodeError} (h : s.pc.toNat ≤ 0xFFE) (hd : decodeWord s.fetchedWord = .error e) :
    cycle s = .next (s.raise .unknownInstruction s.fetchedWord 0) := by
  simp only [cycle, s.fetch_ok h, hd]

theorem stepEvent_running (h : s.status = .running) : stepEvent s = cycle s.beginStep := by
  simp only [stepEvent, h]

theorem stepEvent_notRunning (h : s.status ≠ .running) : stepEvent s = .next s.beginStep := by
  rw [stepEvent]; split <;> simp_all

/-- The `Step` of an instruction. -/
theorem stepEvent_exec {i : Instr} (h : s.Executes i) : stepEvent s = exec i s.beginStep := by
  obtain ⟨h1, h2, h3⟩ := h
  rw [stepEvent_running h1]; exact cycle_exec (s := s.beginStep) h2 h3

/-- The word at `PC` is one instruction (R109). -/
theorem executes_unique {i j : Instr} (h : s.Executes i) (h' : s.Executes j) : i = j :=
  Except.ok.inj (h.2.2.symm.trans h'.2.2)

/-- A `Step` does nothing but `DREW <- 0`, or raises a fetch error, or an illegal word's, or executes an instruction. -/
theorem stepEvent_cases (s : State) :
    (s.status ≠ .running ∧ stepEvent s = .next s.beginStep) ∨
    (s.status = .running ∧ 0xFFE < s.pc.toNat ∧
      stepEvent s = .next (s.beginStep.raise .outOfBounds 0 (max s.pc.toNat memSize))) ∨
    (s.status = .running ∧ s.pc.toNat ≤ 0xFFE ∧ (∀ i, ¬ s.Executes i) ∧
      stepEvent s = .next (s.beginStep.raise .unknownInstruction s.fetchedWord 0)) ∨
    ∃ i, s.Executes i ∧ stepEvent s = exec i s.beginStep := by
  by_cases h : s.status = .running
  · by_cases hp : s.pc.toNat ≤ 0xFFE
    · cases hd : decodeWord s.fetchedWord with
      | ok i => exact .inr (.inr (.inr ⟨i, ⟨h, hp, hd⟩, stepEvent_exec ⟨h, hp, hd⟩⟩))
      | error e =>
        refine .inr (.inr (.inl ⟨h, hp, fun i hi => ?_, ?_⟩))
        · exact absurd (hd.symm.trans hi.2.2) (by simp)
        · rw [stepEvent_running h]; exact cycle_illegal (s := s.beginStep) hp hd
    · exact .inr (.inl ⟨h, by omega, by rw [stepEvent_running h]; exact cycle_outOfRange (s := s.beginStep) (by simpa using hp)⟩)
  · exact .inl ⟨h, stepEvent_notRunning h⟩

/-- What an event does when it answers a next state. -/
theorem applyEvent_cases {e : Event} (h : applyEvent e s = .next t) :
    (e = .reset ∧ t = s.afterReset) ∨
    (∃ bytes, e = .loadRom bytes ∧ s.bootOpen = true ∧ bytes.length ≤ romMax ∧
      t = { s.storeBytes romBase bytes with bootOpen := false }) ∨
    (∃ bytes, e = .loadRom bytes ∧ s.bootOpen = true ∧ romMax < bytes.length ∧
      t = { s with
        status := .halted
        err := { kind := .romTooLarge, pc := 0x200, opcode := 0, addr := 0 }
        bootOpen := false }) ∨
    (e = .step ∧ stepEvent s = .next t) ∨
    (e = .tick ∧ t = tickEvent s) ∨
    (∃ k, e = .keyEvent k ∧ t = keyEvent k s) ∨
    (∃ keys, e = .setKeys keys ∧ t = { s with keys := keys }) := by
  cases e with
  | reset => left; exact ⟨rfl, by injection h with h; exact h.symm⟩
  | loadRom bytes =>
    simp only [applyEvent, loadRomEvent] at h
    split_ifs at h with h1 h2
    · right; left; exact ⟨bytes, rfl, h1, h2, by injection h with h; exact h.symm⟩
    · right; right; left; exact ⟨bytes, rfl, h1, by omega, by injection h with h; exact h.symm⟩
  | step => right; right; right; left; exact ⟨rfl, h⟩
  | tick => right; right; right; right; left; exact ⟨rfl, by injection h with h; exact h.symm⟩
  | keyEvent k => right; right; right; right; right; left; exact ⟨k, rfl, by injection h with h; exact h.symm⟩
  | setKeys keys => right; right; right; right; right; right; exact ⟨keys, rfl, by injection h with h; exact h.symm⟩

/-- A key event in `WaitingForKey` and in any other status (R266, R267). -/
theorem keyEvent_waiting (k : BitVec 4) (h : s.status = .waitingForKey) :
    keyEvent k s = { (s.setReg s.waitX (k.setWidth 8)).advance with status := .running } := by
  simp only [keyEvent, h]

theorem keyEvent_notWaiting (k : BitVec 4) (h : s.status ≠ .waitingForKey) : keyEvent k s = s := by
  rw [keyEvent]; split <;> simp_all

/-- A step of the machine is an event: the oldest waiting one, or `Step`. -/
theorem step_eq_applyEvent (s : State) :
    (s.events = [] ∧ step s = applyEvent .step s) ∨
    ∃ e es, s.events = e :: es ∧ step s = applyEvent e { s with events := es } := by
  cases h : s.events with
  | nil => exact .inl ⟨rfl, by simp only [step, nextEvent, h]⟩
  | cons e es => exact .inr ⟨e, es, rfl, by simp only [step, nextEvent, h]⟩

theorem countDown_toNat (b : Byte) : (countDown b).toNat = b.toNat - 1 := by
  have := b.isLt
  unfold countDown
  split
  · subst_vars; rfl
  · rename_i h
    have hb : b.toNat ≠ 0 := fun h0 => h (BitVec.eq_of_toNat_eq (by simpa using h0))
    rw [BitVec.toNat_sub]; simp; omega

end Sys2Proof.Machine
end

