-- ==== Sys2Proof/Laws/Exec.lean ====
section
/-! SUPPORT. What `exec` can do, said once over all instructions: whether it goes on, where `PC` goes, what the stack and
memory can become. -/

namespace Sys2Proof.Machine

/-- Which instruction can raise which error (R300). -/
def CanRaise : Instr → ErrKind → Prop
  | .call _, k => k = .stackOverflow
  | .ret, k => k = .stackUnderflow
  | .drwVxVyN _ _ _, k | .ldBVx _, k | .ldMemVx _, k | .ldVxMem _, k => k = .outOfBounds
  | _, _ => False

/-- An instruction that answers a next state goes on, or is an FX0A that suspends the core, or raises the error it can
raise, with an `OutOfBounds` address above 0xFFF and else 0. -/
theorem exec_cases {i : Instr} {s t : State} (h : exec i s = .next t) :
    (t.status = s.status ∧ t.err = s.err) ∨
    (∃ x, i = .ldVxK x ∧ t.status = .waitingForKey ∧ t.err = s.err) ∨
    ∃ k op a, CanRaise i k ∧ (k = .outOfBounds → memSize ≤ a ∧ a < 2^17) ∧ (k ≠ .outOfBounds → a = 0) ∧ t = s.raise k op a := by
  cases i with
  | call nnn =>
    simp only [exec, execCall] at h
    rcases s.push_cases (s.pc + 2) with ⟨_, h'⟩ | ⟨_, h'⟩ <;> rw [h'] at h <;> cases h
    · exact .inr (.inr ⟨.stackOverflow, _, 0, rfl, by simp, by simp, rfl⟩)
    · exact .inl ⟨rfl, rfl⟩
  | ret =>
    simp only [exec, execRet] at h
    rcases s.pop_cases with ⟨_, h'⟩ | ⟨_, h'⟩ <;> rw [h'] at h <;> cases h
    · exact .inr (.inr ⟨.stackUnderflow, _, 0, rfl, by simp, by simp, rfl⟩)
    · exact .inl ⟨rfl, rfl⟩
  | drwVxVyN x y n =>
    rcases s.access_cases h with ⟨_, rfl⟩ | ⟨_, _, rfl⟩
    · exact .inl ⟨rfl, rfl⟩
    · exact .inr (.inr ⟨.outOfBounds, _, _, rfl, fun _ => ⟨by omega, by have := s.i.isLt; simp only [memSize]; omega⟩, by simp, rfl⟩)
  | ldBVx x =>
    rcases s.access_cases h with ⟨_, rfl⟩ | ⟨_, _, rfl⟩
    · exact .inl ⟨rfl, rfl⟩
    · exact .inr (.inr ⟨.outOfBounds, _, _, rfl, fun _ => ⟨by omega, by have := s.i.isLt; simp only [memSize]; omega⟩, by simp, rfl⟩)
  | ldMemVx x =>
    rcases s.access_cases h with ⟨_, rfl⟩ | ⟨_, _, rfl⟩
    · exact .inl ⟨rfl, rfl⟩
    · exact .inr (.inr ⟨.outOfBounds, _, _, rfl, fun _ => ⟨by omega, by have := s.i.isLt; simp only [memSize]; omega⟩, by simp, rfl⟩)
  | ldVxMem x =>
    rcases s.access_cases h with ⟨_, rfl⟩ | ⟨_, _, rfl⟩
    · exact .inl ⟨rfl, rfl⟩
    · exact .inr (.inr ⟨.outOfBounds, _, _, rfl, fun _ => ⟨by omega, by have := s.i.isLt; simp only [memSize]; omega⟩, by simp, rfl⟩)
  | rndVxNn x nn => cases h; exact .inl ⟨by simp [State.advance_eq], by simp [State.advance_eq]⟩
  | ldVxK x => cases h; exact .inr (.inl ⟨x, rfl, rfl, rfl⟩)
  | _ => cases h; exact .inl ⟨rfl, rfl⟩

/-- Every instruction keeps memory canonical. -/
theorem exec_memOk {i : Instr} {s t : State} (hm : s.memOk) (h : exec i s = .next t) : t.memOk := by
  cases i with
  | call nnn =>
    simp only [exec, execCall] at h
    rcases s.push_cases (s.pc + 2) with ⟨_, h'⟩ | ⟨hh, h'⟩ <;> rw [h'] at h <;> cases h <;> exact hm
  | ret =>
    simp only [exec, execRet] at h
    rcases s.pop_cases with ⟨_, h'⟩ | ⟨hh, h'⟩ <;> rw [h'] at h <;> cases h <;> exact hm
  | rndVxNn x nn => cases h; simpa only [State.memOk, State.advance_eq, State.jump_mem, State.jump_config, State.setReg_mem, State.setReg_config, State.dropRnd_mem, State.dropRnd_config] using hm
  | drwVxVyN x y n => rcases s.access_cases h with ⟨_, rfl⟩ | ⟨_, _, rfl⟩ <;> exact hm
  | ldVxMem x => rcases s.access_cases h with ⟨_, rfl⟩ | ⟨_, _, rfl⟩ <;> exact hm
  | ldBVx x =>
    rcases s.access_cases h with ⟨hr, rfl⟩ | ⟨_, _, rfl⟩
    · exact s.memOk_storeBytes hm _ (by simp only [bcdDigits, List.length_cons, List.length_nil]; omega)
    · exact hm
  | ldMemVx x =>
    rcases s.access_cases h with ⟨hr, rfl⟩ | ⟨_, _, rfl⟩
    · exact s.memOk_storeBytes hm _ (by rw [State.regsUpTo_length]; omega)
    · exact hm
  | _ => cases h; exact hm

/-- Where an instruction can leave `PC` (R132). -/
theorem exec_pc {i : Instr} {s t : State} (h : exec i s = .next t) :
    t.pc = s.pc ∨ t.pc = s.pc + 2 ∨ t.pc = s.pc + 4 ∨
      (∃ nnn : BitVec 12, t.pc = zext16 nnn) ∨ (∃ nnn : BitVec 12, t.pc = zext16 nnn + (s.reg 0).setWidth 16) ∨
      ∃ k : Fin 16, t.pc = s.stack[k] := by
  cases i with
  | jp nnn => cases h; exact .inr (.inr (.inr (.inl ⟨_, rfl⟩)))
  | jpV0Nnn nnn => cases h; exact .inr (.inr (.inr (.inr (.inl ⟨_, rfl⟩))))
  | call nnn =>
    simp only [exec, execCall] at h
    rcases s.push_cases (s.pc + 2) with ⟨_, h'⟩ | ⟨hh, h'⟩ <;> rw [h'] at h <;> cases h
    · exact .inl rfl
    · exact .inr (.inr (.inr (.inl ⟨_, rfl⟩)))
  | ret =>
    simp only [exec, execRet] at h
    rcases s.pop_cases with ⟨_, h'⟩ | ⟨hh, h'⟩ <;> rw [h'] at h <;> cases h
    · exact .inl rfl
    · exact .inr (.inr (.inr (.inr (.inr ⟨⟨s.sp.val - 1, by omega⟩, rfl⟩))))
  | seVxNn x nn => cases h; simp only [State.skipIf_eq, State.jump_pc]; split <;> simp
  | sneVxNn x nn => cases h; simp only [State.skipIf_eq, State.jump_pc]; split <;> simp
  | seVxVy x nn => cases h; simp only [State.skipIf_eq, State.jump_pc]; split <;> simp
  | sneVxVy x nn => cases h; simp only [State.skipIf_eq, State.jump_pc]; split <;> simp
  | skpVx x => cases h; simp only [State.skipIf_eq, State.jump_pc]; split <;> simp
  | sknpVx x => cases h; simp only [State.skipIf_eq, State.jump_pc]; split <;> simp
  | rndVxNn x nn => cases h; exact .inr (.inl (by simp [State.advance_eq]))
  | drwVxVyN x y n => rcases s.access_cases h with ⟨_, rfl⟩ | ⟨_, _, rfl⟩; exact .inr (.inl rfl); exact .inl rfl
  | ldVxMem x => rcases s.access_cases h with ⟨_, rfl⟩ | ⟨_, _, rfl⟩; exact .inr (.inl rfl); exact .inl rfl
  | ldBVx x => rcases s.access_cases h with ⟨_, rfl⟩ | ⟨_, _, rfl⟩; exact .inr (.inl rfl); exact .inl rfl
  | ldMemVx x => rcases s.access_cases h with ⟨_, rfl⟩ | ⟨_, _, rfl⟩; exact .inr (.inl rfl); exact .inl rfl
  | ldVxK x => cases h; exact .inl rfl
  | _ => cases h; exact .inr (.inl rfl)

/-- A stack slot keeps its content or gets a return address. -/
theorem exec_stack {i : Instr} {s t : State} (h : exec i s = .next t) (k : Fin 16) :
   t.stack[k] = s.stack[k] ∨ t.stack[k] = s.pc + 2 := by
  cases i with
  | call nnn =>
    simp only [exec, execCall] at h
    rcases s.push_cases (s.pc + 2) with ⟨_, h'⟩ | ⟨hh, h'⟩ <;> rw [h'] at h <;> cases h
    · exact .inl rfl
    · simp only [State.jump, Fin.getElem_fin, Vector.getElem_set]; split <;> simp
  | ret =>
    simp only [exec, execRet] at h
    rcases s.pop_cases with ⟨_, h'⟩ | ⟨hh, h'⟩ <;> rw [h'] at h <;> cases h <;> exact .inl rfl
  | drwVxVyN x y n => rcases s.access_cases h with ⟨_, rfl⟩ | ⟨_, _, rfl⟩ <;> exact .inl rfl
  | ldVxMem x => rcases s.access_cases h with ⟨_, rfl⟩ | ⟨_, _, rfl⟩ <;> exact .inl rfl
  | ldBVx x => rcases s.access_cases h with ⟨_, rfl⟩ | ⟨_, _, rfl⟩ <;> exact .inl rfl
  | ldMemVx x => rcases s.access_cases h with ⟨_, rfl⟩ | ⟨_, _, rfl⟩ <;> exact .inl rfl
  | rndVxNn x nn => cases h; left; simp [State.advance_eq]
  | _ => cases h; exact .inl rfl

/-- What belongs to the environment is changed by no instruction. -/
theorem exec_environment {i : Instr} {s t : State} (h : exec i s = .next t) :
   t.keys = s.keys ∧ t.config = s.config ∧ t.events = s.events ∧ t.bootOpen = s.bootOpen := by
  cases i with
  | call nnn =>
    simp only [exec, execCall] at h
    rcases s.push_cases (s.pc + 2) with ⟨_, h'⟩ | ⟨hh, h'⟩ <;> rw [h'] at h <;> cases h <;> exact ⟨rfl, rfl, rfl, rfl⟩
  | ret =>
    simp only [exec, execRet] at h
    rcases s.pop_cases with ⟨_, h'⟩ | ⟨hh, h'⟩ <;> rw [h'] at h <;> cases h <;> exact ⟨rfl, rfl, rfl, rfl⟩
  | drwVxVyN x y n => rcases s.access_cases h with ⟨_, rfl⟩ | ⟨_, _, rfl⟩ <;> simp [State.advance_eq]
  | ldVxMem x => rcases s.access_cases h with ⟨_, rfl⟩ | ⟨_, _, rfl⟩ <;> simp [State.advance_eq]
  | ldBVx x => rcases s.access_cases h with ⟨_, rfl⟩ | ⟨_, _, rfl⟩ <;> simp [State.advance_eq]
  | ldMemVx x => rcases s.access_cases h with ⟨_, rfl⟩ | ⟨_, _, rfl⟩ <;> simp [State.advance_eq]
  | rndVxNn x nn => cases h; simp [State.advance_eq]
  | _ => cases h; exact ⟨rfl, rfl, rfl, rfl⟩

end Sys2Proof.Machine
end

