-- ==== Sys2Proof/Laws/PerInstr.lean ====
section
/-! SUPPORT. Statements made per instruction: every instruction is encoded into its own row of the opcode map. -/

namespace Sys2Proof.Laws.InItsRow

/-- The column "selects when" of R104. -/
def rowSelects : Instr → Word → Prop
  | .cls, w => w = 0x00E0
  | .ret, w => w = 0x00EE
  | .jp _, w => opClass w = 0x1
  | .call _, w => opClass w = 0x2
  | .seVxNn _ _, w => opClass w = 0x3
  | .sneVxNn _ _, w => opClass w = 0x4
  | .seVxVy _ _, w => opClass w = 0x5 ∧ opN w = 0x0
  | .ldVxNn _ _, w => opClass w = 0x6
  | .addVxNn _ _, w => opClass w = 0x7
  | .ldVxVy _ _, w => opClass w = 0x8 ∧ opN w = 0x0
  | .orVxVy _ _, w => opClass w = 0x8 ∧ opN w = 0x1
  | .andVxVy _ _, w => opClass w = 0x8 ∧ opN w = 0x2
  | .xorVxVy _ _, w => opClass w = 0x8 ∧ opN w = 0x3
  | .addVxVy _ _, w => opClass w = 0x8 ∧ opN w = 0x4
  | .subVxVy _ _, w => opClass w = 0x8 ∧ opN w = 0x5
  | .shrVxVy _ _, w => opClass w = 0x8 ∧ opN w = 0x6
  | .subnVxVy _ _, w => opClass w = 0x8 ∧ opN w = 0x7
  | .shlVxVy _ _, w => opClass w = 0x8 ∧ opN w = 0xE
  | .sneVxVy _ _, w => opClass w = 0x9 ∧ opN w = 0x0
  | .ldINnn _, w => opClass w = 0xA
  | .jpV0Nnn _, w => opClass w = 0xB
  | .rndVxNn _ _, w => opClass w = 0xC
  | .drwVxVyN _ _ _, w => opClass w = 0xD
  | .skpVx _, w => opClass w = 0xE ∧ (opNN w).toNat = 0x9E
  | .sknpVx _, w => opClass w = 0xE ∧ (opNN w).toNat = 0xA1
  | .ldVxDt _, w => opClass w = 0xF ∧ (opNN w).toNat = 0x07
  | .ldVxK _, w => opClass w = 0xF ∧ (opNN w).toNat = 0x0A
  | .ldDtVx _, w => opClass w = 0xF ∧ (opNN w).toNat = 0x15
  | .ldStVx _, w => opClass w = 0xF ∧ (opNN w).toNat = 0x18
  | .addIVx _, w => opClass w = 0xF ∧ (opNN w).toNat = 0x1E
  | .ldFVx _, w => opClass w = 0xF ∧ (opNN w).toNat = 0x29
  | .ldBVx _, w => opClass w = 0xF ∧ (opNN w).toNat = 0x33
  | .ldMemVx _, w => opClass w = 0xF ∧ (opNN w).toNat = 0x55
  | .ldVxMem _, w => opClass w = 0xF ∧ (opNN w).toNat = 0x65

/-- The word of an instruction is one its row selects. -/
def Statement (i : Instr) : Prop := rowSelects i (encode i)

theorem cls : Statement .cls := rfl
theorem ret : Statement .ret := rfl
theorem jp (nnn : BitVec 12) : Statement (.jp nnn) := opClass_fmtNNN (by decide) _
theorem call (nnn : BitVec 12) : Statement (.call nnn) := opClass_fmtNNN (by decide) _
theorem seVxNn (x : Reg) (nn : Byte) : Statement (.seVxNn x nn) := opClass_fmtXNN (by decide) _ _
theorem sneVxNn (x : Reg) (nn : Byte) : Statement (.sneVxNn x nn) := opClass_fmtXNN (by decide) _ _
theorem seVxVy (x y : Reg) : Statement (.seVxVy x y) := ⟨opClass_fmtXYN (by decide) x y _, opN_fmtXYN (by decide) x y _⟩
theorem ldVxNn (x : Reg) (nn : Byte) : Statement (.ldVxNn x nn) := opClass_fmtXNN (by decide) _ _
theorem addVxNn (x : Reg) (nn : Byte) : Statement (.addVxNn x nn) := opClass_fmtXNN (by decide) _ _
theorem ldVxVy (x y : Reg) : Statement (.ldVxVy x y) := ⟨opClass_fmtXYN (by decide) x y _, opN_fmtXYN (by decide) x y _⟩
theorem orVxVy (x y : Reg) : Statement (.orVxVy x y) := ⟨opClass_fmtXYN (by decide) x y _, opN_fmtXYN (by decide) x y _⟩
theorem andVxVy (x y : Reg) : Statement (.andVxVy x y) := ⟨opClass_fmtXYN (by decide) x y _, opN_fmtXYN (by decide) x y _⟩
theorem xorVxVy (x y : Reg) : Statement (.xorVxVy x y) := ⟨opClass_fmtXYN (by decide) x y _, opN_fmtXYN (by decide) x y _⟩
theorem addVxVy (x y : Reg) : Statement (.addVxVy x y) := ⟨opClass_fmtXYN (by decide) x y _, opN_fmtXYN (by decide) x y _⟩
theorem subVxVy (x y : Reg) : Statement (.subVxVy x y) := ⟨opClass_fmtXYN (by decide) x y _, opN_fmtXYN (by decide) x y _⟩
theorem shrVxVy (x y : Reg) : Statement (.shrVxVy x y) := ⟨opClass_fmtXYN (by decide) x y _, opN_fmtXYN (by decide) x y _⟩
theorem subnVxVy (x y : Reg) : Statement (.subnVxVy x y) := ⟨opClass_fmtXYN (by decide) x y _, opN_fmtXYN (by decide) x y _⟩
theorem shlVxVy (x y : Reg) : Statement (.shlVxVy x y) := ⟨opClass_fmtXYN (by decide) x y _, opN_fmtXYN (by decide) x y _⟩
theorem sneVxVy (x y : Reg) : Statement (.sneVxVy x y) := ⟨opClass_fmtXYN (by decide) x y _, opN_fmtXYN (by decide) x y _⟩
theorem ldINnn (nnn : BitVec 12) : Statement (.ldINnn nnn) := opClass_fmtNNN (by decide) _
theorem jpV0Nnn (nnn : BitVec 12) : Statement (.jpV0Nnn nnn) := opClass_fmtNNN (by decide) _
theorem rndVxNn (x : Reg) (nn : Byte) : Statement (.rndVxNn x nn) := opClass_fmtXNN (by decide) _ _
theorem drwVxVyN (x y : Reg) (n : Nat) : Statement (.drwVxVyN x y n) := opClass_fmtXYN (by decide) _ _ _
theorem skpVx (x : Reg) : Statement (.skpVx x) := fmtXF_selects (by decide) (by decide) x
theorem sknpVx (x : Reg) : Statement (.sknpVx x) := fmtXF_selects (by decide) (by decide) x
theorem ldVxDt (x : Reg) : Statement (.ldVxDt x) := fmtXF_selects (by decide) (by decide) x
theorem ldVxK (x : Reg) : Statement (.ldVxK x) := fmtXF_selects (by decide) (by decide) x
theorem ldDtVx (x : Reg) : Statement (.ldDtVx x) := fmtXF_selects (by decide) (by decide) x
theorem ldStVx (x : Reg) : Statement (.ldStVx x) := fmtXF_selects (by decide) (by decide) x
theorem addIVx (x : Reg) : Statement (.addIVx x) := fmtXF_selects (by decide) (by decide) x
theorem ldFVx (x : Reg) : Statement (.ldFVx x) := fmtXF_selects (by decide) (by decide) x
theorem ldBVx (x : Reg) : Statement (.ldBVx x) := fmtXF_selects (by decide) (by decide) x
theorem ldMemVx (x : Reg) : Statement (.ldMemVx x) := fmtXF_selects (by decide) (by decide) x
theorem ldVxMem (x : Reg) : Statement (.ldVxMem x) := fmtXF_selects (by decide) (by decide) x

end Sys2Proof.Laws.InItsRow
end

