-- ==== Sys2Proof/Tests/Slice0.lean ====
section
/-! SUPPORT. Tests, with results from 95_test_vectors.md and the examples of the rules, and for every statement with
hypotheses a concrete state that meets them. -/

namespace Sys2Proof.Tests

open Sys2Proof Sys2Proof.Machine

/-! ### WellFormed: what it refuses -/

theorem test_wellFormed_refuses_16_rows : (Instr.drwVxVyN 0 0 16).wellFormed = false := by decide
theorem test_wellFormed_takes_15_rows : (Instr.drwVxVyN 15 15 15).wellFormed = true := by decide

/-! ### Decode: words written out from the patterns of R104, one for every row -/

theorem test_decode_class_0 :
    decodeWord 0b0000000011100000 = .ok .cls ∧ decodeWord 0b0000000011101110 = .ok .ret := by decide
theorem test_decode_nnn :
    decodeWord 0b0001101010111100 = .ok (.jp 0xABC) ∧ decodeWord 0b0010010000000000 = .ok (.call 0x400) ∧
    decodeWord 0b1010001000000000 = .ok (.ldINnn 0x200) ∧ decodeWord 0b1011001100000000 = .ok (.jpV0Nnn 0x300) := by
  decide
theorem test_decode_xnn :
    decodeWord 0b0011001100010010 = .ok (.seVxNn 3 0x12) ∧ decodeWord 0b0100001100010011 = .ok (.sneVxNn 3 0x13) ∧
    decodeWord 0b0110101000000101 = .ok (.ldVxNn 0xA 0x05) ∧ decodeWord 0b0111101000000011 = .ok (.addVxNn 0xA 0x03) ∧
    decodeWord 0b1100001100111100 = .ok (.rndVxNn 3 0x3C) := by decide
theorem test_decode_xyf_skip :
    decodeWord 0b0101000100100000 = .ok (.seVxVy 1 2) ∧ decodeWord 0b1001000100100000 = .ok (.sneVxVy 1 2) := by decide
theorem test_decode_xyf_alu :
    decodeWord 0b1000000100100000 = .ok (.ldVxVy 1 2) ∧ decodeWord 0b1000000100100001 = .ok (.orVxVy 1 2) ∧
    decodeWord 0b1000000100100010 = .ok (.andVxVy 1 2) ∧ decodeWord 0b1000000100100011 = .ok (.xorVxVy 1 2) ∧
    decodeWord 0b1000000100100100 = .ok (.addVxVy 1 2) ∧ decodeWord 0b1000000100100101 = .ok (.subVxVy 1 2) ∧
    decodeWord 0b1000000100100110 = .ok (.shrVxVy 1 2) ∧ decodeWord 0b1000000100100111 = .ok (.subnVxVy 1 2) ∧
    decodeWord 0b1000000100101110 = .ok (.shlVxVy 1 2) := by decide
theorem test_decode_xyn : decodeWord 0b1101000100100101 = .ok (.drwVxVyN 1 2 5) := by decide
theorem test_decode_xf :
    decodeWord 0b1110000110011110 = .ok (.skpVx 1) ∧ decodeWord 0b1110000110100001 = .ok (.sknpVx 1) ∧
    decodeWord 0b1111001000000111 = .ok (.ldVxDt 2) ∧ decodeWord 0b1111001100001010 = .ok (.ldVxK 3) ∧
    decodeWord 0b1111001000010101 = .ok (.ldDtVx 2) ∧ decodeWord 0b1111001000011000 = .ok (.ldStVx 2) ∧
    decodeWord 0b1111001000011110 = .ok (.addIVx 2) ∧ decodeWord 0b1111000000101001 = .ok (.ldFVx 0) ∧
    decodeWord 0b1111010100110011 = .ok (.ldBVx 5) ∧ decodeWord 0b1111001001010101 = .ok (.ldMemVx 2) ∧
    decodeWord 0b1111111101100101 = .ok (.ldVxMem 0xF) := by decide
/-- The illegal words of the decode vectors. -/
theorem test_decode_illegal :
    ∀ w ∈ [0x0000, 0x00E1, 0x0123, 0x5121, 0x8008, 0x800F, 0x9121, 0xE09F, 0xF000, 0xF0FF],
      decodeWord (BitVec.ofNat 16 w) = .error (.unknownInstruction (BitVec.ofNat 16 w)) := by decide
theorem test_decode_bytes : decode [0x6A, 0x05, 0x7A] = .ok (.ldVxNn 0xA 0x05, [0x7A]) ∧
    decode [0x6A] = .error .truncated := by decide
theorem test_encodeBytes_big_endian : encodeBytes (.ldVxNn 0xA 0x05) = [0x6A, 0x05] := by decide
theorem test_decodeTableWord : decodeTableWord 16 0xD125 = some (.drwVxVyN 1 2 5) ∧ decodeTableWord 16 0x0123 = none := by
  decide

/-! ### One step -/

/-- The reset state with some registers set. -/
def regs (l : List (Reg × Byte)) : State := l.foldl (fun s p => s.setReg p.1 p.2) State.reset

/-- The state after one step that runs the word `w` at `PC`. -/
def stepOn (s : State) (w : Nat) : Option State :=
  match step (s.withFetchWord 16 w) with
  | .next t => some t
  | .fault _ => none
  | .refused _ => none

/-- The state after some events. -/
def after (s : State) (es : List Event) : Option State :=
  match applyEvents es s with
  | .next t => some t
  | .fault _ => none
  | .refused _ => none

/-- The latch: kind, `PC`, opcode, address. -/
def latch (t : State) : ErrKind × Nat × Nat × Nat := (t.err.kind, t.err.pc.toNat, t.err.opcode.toNat, t.err.addr.toNat)

-- S1
theorem test_ldVxNn : (stepOn State.reset 0x6A05).map (fun t => (t.reg 0xA, t.pc)) = some (0x05, 0x202) := by decide
theorem test_addVxNn : (stepOn (regs [(0xA, 5)]) 0x7A03).map (fun t => (t.reg 0xA, t.reg VF)) = some (8, 0) := by decide
-- A2
theorem test_addVxNn_no_flag :
    (stepOn (regs [(0, 0xFF), (VF, 0x55)]) 0x7001).map (fun t => (t.reg 0, t.reg VF)) = some (0x00, 0x55) := by decide
-- F1, F3, F4
theorem test_jp : (stepOn State.reset 0x1ABC).map (·.pc) = some 0xABC := by decide
theorem test_call : (stepOn { State.reset with sp := 15, pc := 0x300 } 0x2400).map
    (fun t => (t.sp, t.stack[15], t.pc)) = some (16, 0x302, 0x400) := by decide
theorem test_call_overflow : (stepOn { State.reset with sp := 16, pc := 0x300 } 0x2400).map
    (fun t => (t.status, latch t, t.sp, t.pc)) = some (.halted, (.stackOverflow, 0x300, 0x2400, 0), 16, 0x300) := by decide
-- F6, S2
theorem test_ret : (stepOn { State.reset with sp := 2, stack := State.reset.stack.set 1 0x25A, pc := 0x310 } 0x00EE).map
    (fun t => (t.sp, t.pc)) = some (1, 0x25A) := by decide
theorem test_ret_underflow : (stepOn State.reset 0x00EE).map
    (fun t => (t.status, latch t, t.pc)) = some (.halted, (.stackUnderflow, 0x200, 0x00EE, 0), 0x200) := by decide
-- F7
theorem test_jpV0 : (stepOn (regs [(0, 0xFF)]) 0xBFFF).map (·.pc) = some 0x10FE := by decide
-- R138, R139, F11
theorem test_seVxNn : (stepOn (regs [(3, 0x12)]) 0x3312).map (·.pc) = some 0x204 ∧
    (stepOn (regs [(3, 0x12)]) 0x3313).map (·.pc) = some 0x202 := by decide
theorem test_sneVxNn : (stepOn (regs [(3, 0x12)]) 0x4313).map (·.pc) = some 0x204 ∧
    (stepOn State.reset 0x4400).map (·.pc) = some 0x202 := by decide
-- R140, F13, R141, F14
theorem test_seVxVy : (stepOn (regs [(1, 7), (2, 7)]) 0x5120).map (·.pc) = some 0x204 ∧
    (stepOn State.reset 0x5660).map (·.pc) = some 0x204 := by decide
theorem test_sneVxVy : (stepOn (regs [(1, 7), (2, 8)]) 0x9120).map (·.pc) = some 0x204 ∧
    (stepOn State.reset 0x9660).map (·.pc) = some 0x202 := by decide
-- F2, R356 (an empty image)
theorem test_fetch_at_FFF : (after { State.reset with pc := 0xFFF } [.step]).map
    (fun t => (t.status, latch t)) = some (.halted, (.outOfBounds, 0xFFF, 0, 0x1000)) := by decide
theorem test_nothing_loaded : (after State.reset [.step]).map
    (fun t => (t.status, latch t)) = some (.halted, (.unknownInstruction, 0x200, 0x0000, 0)) := by decide

/-- `V[1]` and VF after a word run with given `V[1]`, `V[2]`, VF. -/
def alu (v1 v2 vf : Byte) (w : Nat) : Option (Byte × Byte) :=
  (stepOn (regs [(1, v1), (2, v2), (VF, vf)]) w).map fun t => (t.reg 1, t.reg VF)

-- R163, A28; A25, A26, R166
theorem test_ldVxVy : alu 0 0x33 0 0x8120 = some (0x33, 0) ∧ alu 0 0x99 0 0x8F20 = some (0, 0x99) := by decide
theorem test_orVxVy : alu 0x01 0x02 0x07 0x8121 = some (0x03, 0x07) := by decide
theorem test_andVxVy : alu 0xF0 0x3C 0x07 0x8122 = some (0x30, 0x07) := by decide
theorem test_xorVxVy : alu 0x3C 0x0F 0x07 0x8123 = some (0x33, 0x07) := by decide
-- A4, A5, A8, A10
theorem test_addVxVy : alu 0x80 0x80 0 0x8124 = some (0x00, 1) ∧ alu 0x7F 0x01 0 0x8124 = some (0x80, 0) := by decide
theorem test_addVxVy_VF : alu 0xF5 0 0x10 0x8F14 = some (0xF5, 1) ∧ alu 0xFF 0 0x01 0x81F4 = some (0x00, 1) := by decide
-- A11, A12, A15
theorem test_subVxVy : alu 0x05 0x05 0 0x8125 = some (0x00, 1) ∧ alu 0x00 0x01 0 0x8125 = some (0xFF, 0) := by decide
theorem test_subVxVy_VF : alu 0x05 0 0x03 0x8F15 = some (0x05, 0) := by decide
-- A18, A20, A21
theorem test_shrVxVy : alu 0x01 0 0 0x8106 = some (0x00, 1) ∧ alu 0x02 0xFF 0 0x8126 = some (0x01, 0) := by decide
theorem test_shrVxVy_VF : alu 0 0 0x03 0x8F06 = some (0, 1) := by decide
-- A16, A17
theorem test_subnVxVy : alu 0x10 0x01 0 0x8127 = some (0xF1, 0) ∧ alu 0x01 0x10 0 0x8127 = some (0x0F, 1) := by decide
-- A22, A23, A24
theorem test_shlVxVy : alu 0x80 0 0 0x810E = some (0x00, 1) ∧ alu 0x7F 0 0 0x810E = some (0xFE, 0) := by decide
theorem test_shlVxVy_VF : alu 0 0 0x80 0x8F0E = some (0, 1) := by decide
-- R172: draw 0xA7; A30: any draw, here a free one
theorem test_rndVxNn : (stepOn { State.reset with rndInputs := [0xA7, 0x11] } 0xC30F).map
    (fun t => (t.reg 3, t.rndInputs)) = some (0x07, [0x11]) := by decide
theorem test_rndVxNn_zero : (stepOn State.reset 0xC300).map (fun t => (t.reg 3, t.rndCount)) = some (0, 1) := by
  show some (Config.rnd 0 &&& 0x00, 1) = _
  simp

-- S4, M2, M3, M5, M6
theorem test_ldINnn : (stepOn State.reset 0xA200).map (·.i) = some 0x200 := by decide
theorem test_addIVx : (stepOn { regs [(1, 2), (VF, 0x22)] with i := 0xFFFF } 0xF11E).map
    (fun t => (t.i, t.reg VF)) = some (0x0001, 0x22) := by decide
theorem test_ldFVx : (stepOn (regs [(1, 0x0F)]) 0xF129).map (·.i) = some 0x09B ∧
    (stepOn (regs [(1, 0x10)]) 0xF129).map (·.i) = some 0x050 := by decide
-- M8, M10, M11
theorem test_ldBVx : (stepOn { regs [(1, 255)] with i := 0x300 } 0xF133).map (·.readBytes 0x2FF 5) =
    some [0, 2, 5, 5, 0] := by decide
theorem test_ldBVx_bounds : (stepOn { regs [(1, 9)] with i := 0xFFD } 0xF133).map (·.readBytes 0xFFD 3) = some [0, 0, 9] ∧
    (stepOn { regs [(1, 9)] with i := 0xFFE } 0xF133).map (fun t => (latch t, t.readByte 0xFFE)) =
      some ((.outOfBounds, 0x200, 0xF133, 0x1000), 0) := by decide
-- R204, M14
theorem test_ldMemVx : (stepOn { regs [(0, 1), (1, 2), (2, 3), (3, 4)] with i := 0x300 } 0xF255).map
    (fun t => (t.readBytes 0x300 4, t.i)) = some ([1, 2, 3, 0], 0x300) := by decide
theorem test_ldMemVx_bounds : (stepOn { State.reset with i := 0x2000 } 0xF055).map latch =
    some (.outOfBounds, 0x200, 0xF055, 0x2000) := by decide
-- M16; the font at 0x073 (P3)
theorem test_ldVxMem : (stepOn { regs [(1, 0x11)] with i := 0x073 } 0xF065).map (fun t => (t.reg 0, t.reg 1, t.i)) =
    some (0xF0, 0x11, 0x073) := by decide
theorem test_ldVxMem_bounds : (stepOn { State.reset with i := 0xFF1 } 0xFF65).map latch =
    some (.outOfBounds, 0x200, 0xFF65, 0x1000) := by decide

/-- The pixels of row `y` after a word run with given registers, `I` = 0x300 and bytes there; row bit `x` is column `x`. -/
def drawn (l : List (Reg × Byte)) (bytes : List Byte) (w : Nat) (y : Fin 32) : Option (BitVec 64 × Byte) :=
  (stepOn ({ regs l with i := 0x300 }.storeBytes 0x300 bytes) w).map fun t => (t.fb[y], t.reg VF)

-- D1
theorem test_cls : (stepOn { State.reset with fb := Vector.replicate 32 1 } 0x00E0).map
    (fun t => (t.fb, t.drew)) = some (Vector.replicate 32 0, true) := by decide
-- D5: pixels (60..63, 0) and (0..3, 0); D8: pixel (60, 5), coordinates from the old VF
theorem test_drw_wraps : drawn [(0, 60)] [0xFF] 0xD011 0 = some (0xF00000000000000F, 0) := by decide
theorem test_drw_old_VF : drawn [(VF, 0x3C), (1, 0x05)] [0x80] 0xDF11 5 = some (0x1000000000000000, 0) := by decide

-- K1, K2, K3, R262
theorem test_skpVx : (stepOn { regs [(1, 0x1F)] with keys := 0x8000 } 0xE19E).map (·.pc) = some 0x204 ∧
    (stepOn (regs [(1, 3)]) 0xE19E).map (·.pc) = some 0x202 := by decide
theorem test_sknpVx : (stepOn (regs [(1, 3)]) 0xE1A1).map (·.pc) = some 0x204 ∧
    (stepOn { regs [(1, 5)] with keys := 0x0020 } 0xE1A1).map (·.pc) = some 0x202 := by decide
-- K4, K5
theorem test_ldVxK : (stepOn { State.reset with keys := 4 } 0xF50A).map
    (fun t => (t.status, t.waitX, t.pc)) = some (.waitingForKey, 5, 0x200) := by decide
theorem test_keyEvent : (after { State.reset with status := .waitingForKey, waitX := 5 } [.keyEvent 0xE]).map
    (fun t => (t.reg 5, t.pc, t.status)) = some (0x0E, 0x202, .running) := by decide
-- K8, R271, K9
theorem test_ldVxDt : (stepOn { State.reset with dt := 0x21 } 0xF407).map (·.reg 4) = some 0x21 := by decide
theorem test_ldDtVx : (stepOn (regs [(2, 10)]) 0xF215).map (·.dt) = some 10 := by decide
theorem test_ldStVx : (stepOn (regs [(4, 1)]) 0xF418).map (fun t => (t.st, t.soundActive)) = some (1, true) := by decide
-- K11
theorem test_tick : (after { State.reset with st := 5 } [.tick]).map (fun t => (t.dt, t.st)) = some (0, 4) := by decide
-- S5, R358
theorem test_loadRom_twice : applyEvents [.loadRom [0x60], .loadRom [0x60]] State.reset =
    .refused .loadRomOutsideBootWindow := rfl

/-! ### Witnesses: for each statement with hypotheses, a concrete state and operands that meet them -/

/-- The reset state with the word `w` at `PC` = 0x200, ready to run. -/
def with_ (w : Nat) : State := State.reset.withFetchWord 16 w

theorem witness_DecodeOfEncodeIsTheInstruction : (Instr.drwVxVyN 15 15 15).wellFormed = true ∧ Instr.cls.wellFormed = true := by
  decide
theorem witness_EncodeOfDecodeIsTheWord : decodeWord 0xDFFF = .ok (.drwVxVyN 15 15 15) := by decide
theorem witness_FetchIsBigEndianAndChecked :
    0xFFF < ({ State.reset with pc := 0x1000 } : State).pc.toNat ∧
    ({ State.reset with pc := 0xFFF } : State).pc.toNat ≤ 0xFFF ∧ 0xFFF < ({ State.reset with pc := 0xFFF } : State).pc.toNat + 1 ∧
    ({ State.reset with pc := 0xFFE } : State).pc.toNat + 1 ≤ 0xFFF := by decide
theorem executes_cls : (with_ 0x00E0).Executes .cls := ⟨rfl, by decide, by decide⟩
theorem witness_StepRunsTheDecodedInstruction :
    (with_ 0x00E0).Executes .cls ∧ (with_ 0x00E0).events = [] ∧
    ({ with_ 0x00E0 with events := [.step, .tick] } : State).Executes .cls ∧
    ({ with_ 0x00E0 with events := [.step, .tick] } : State).events = .step :: [.tick] :=
  ⟨executes_cls, rfl, ⟨rfl, by decide, by decide⟩, rfl⟩
theorem witness_OutOfRangeFetchHalts :
    ({ State.reset with pc := 0xFFF } : State).status = .running ∧ 0xFFE < ({ State.reset with pc := 0xFFF } : State).pc.toNat := by
  decide
theorem witness_IllegalWordHalts :
    State.reset.status = .running ∧ State.reset.pc.toNat ≤ 0xFFE ∧
    (0x0000 : Word) = State.reset.readByte State.reset.pc.toNat ++ State.reset.readByte (State.reset.pc.toNat + 1) ∧
    ∀ i, decodeWord 0x0000 ≠ .ok i :=
  ⟨rfl, by decide, by decide, fun i h => by
    rw [show decodeWord 0x0000 = .error (.unknownInstruction 0x0000) by decide] at h; cases h⟩

/-- The state after the first step with nothing loaded: `Halted`. -/
def halted : State := { State.reset with
  status := .halted, err := { kind := .unknownInstruction, pc := 0x200, opcode := 0, addr := 0 }, bootOpen := false }

/-- The state an FX0A leaves. -/
def waiting : State := { with_ 0xF50A with waitX := 5, status := .waitingForKey, bootOpen := false }

theorem halted_inv : halted.Inv :=
  ⟨by decide, by decide, by decide, by decide, by decide, by decide, by decide, by decide, fun h => by cases h⟩
theorem waiting_inv : waiting.Inv :=
  ⟨by decide, by decide, by decide, by decide, by decide, by decide, by decide, by decide, fun h => by cases h⟩
theorem witness_StepDoesNothingUnlessRunning :
    (waiting.Inv ∧ waiting.status = .waitingForKey) ∧ halted.Inv ∧ halted.status = .halted :=
  ⟨⟨waiting_inv, rfl⟩, halted_inv, rfl⟩
/-- One failing step of each kind: fetch, decode, call, return, memory access. -/
theorem witness_ErrorsArePrecise :
    (after { State.reset with pc := 0xFFF } [.step]).map (·.status) = some .halted ∧
    (after State.reset [.step]).map (·.status) = some .halted ∧
    (after { with_ 0x2400 with sp := 16 } [.step]).map (·.err.kind) = some .stackOverflow ∧
    (after (with_ 0x00EE) [.step]).map (·.err.kind) = some .stackUnderflow ∧
    (after { with_ 0xF055 with i := 0x1000 } [.step]).map (·.err.kind) = some .outOfBounds := by decide
theorem witness_HaltedIsTerminal :
    halted.status = .halted ∧ halted.bootOpen = false ∧
    ∀ e ∈ [Event.step, .tick, .keyEvent 3, .setKeys 1], e ≠ .reset ∧ ∀ bytes, e ≠ .loadRom bytes := by
  refine ⟨rfl, rfl, fun e he => ?_⟩
  fin_cases he <;> exact ⟨by simp, by simp⟩
theorem witness_CallPushesTheNextAddress :
    ({ State.reset with sp := 0 } : State).sp.val < 16 ∧ ({ State.reset with sp := 15 } : State).sp.val < 16 ∧
    ({ State.reset with sp := 16 } : State).sp.val = 16 := by decide
theorem witness_ReturnPopsTheTop :
    0 < ({ State.reset with sp := 1 } : State).sp.val ∧ 0 < ({ State.reset with sp := 16 } : State).sp.val ∧
    State.reset.sp.val = 0 := by decide
theorem witness_CallThenReturnComesBack : ({ State.reset with sp := 15 } : State).sp.val < 16 := by decide
theorem witness_SkipsOnRegisters : (1 : BitVec 4) ≠ 0 ∧ (15 : BitVec 4) ≠ 0 := by decide
/-- For the flag writers, R167 to R171: a destination that is not VF. -/
theorem witness_AddSetsCarry : (0 : Reg) ≠ VF ∧ (14 : Reg) ≠ VF := by decide
theorem witness_SubtractsSetNotBorrow : (0 : Reg) ≠ VF ∧ (14 : Reg) ≠ VF := by decide
theorem witness_ShiftsSetTheBitOut : (0 : Reg) ≠ VF ∧ (14 : Reg) ≠ VF := by decide
theorem witness_RandomIsADrawMasked :
    ({ State.reset with rndInputs := [0xA7] } : State).rndInputs = 0xA7 :: [] ∧ State.reset.rndInputs = [] := by decide
theorem witness_IndexRegisterWrites : State.reset.config.wf := by decide
theorem witness_BcdStoresThreeDigits :
    ({ State.reset with i := 0xFFD } : State).i.toNat + 2 ≤ 0xFFF ∧ ({ State.reset with i := 0xFFD } : State).memOk ∧
    0xFFF < ({ State.reset with i := 0xFFE } : State).i.toNat + 2 := by decide
theorem witness_StoresRegistersAtI :
    ({ State.reset with i := 0xFF0 } : State).i.toNat + (15 : Reg).val ≤ 0xFFF ∧ ({ State.reset with i := 0xFF0 } : State).memOk ∧
    0xFFF < ({ State.reset with i := 0xFF1 } : State).i.toNat + (15 : Reg).val := by decide
theorem witness_LoadsRegistersFromI :
    ({ State.reset with i := 0xFFF } : State).i.toNat + (0 : Reg).val ≤ 0xFFF ∧
    0xFFF < ({ State.reset with i := 0x1000 } : State).i.toNat + (0 : Reg).val := by decide
/-- The check passes with no byte and at the top of memory, and fails one address above it. -/
theorem witness_AddressCheckReportsTheLowest :
    firstOutOfRange 0xFFFF 0 = none ∧ firstOutOfRange 0xFF0 16 = none ∧ firstOutOfRange 0xFF1 16 = some 0x1000 ∧
    firstOutOfRange 0x2000 1 = some 0x2000 := by decide
theorem witness_StoreIntoTheNextInstructionIsFetched :
    ({ State.reset with pc := 0xFFC, i := 0xFFE } : State).memOk ∧ 1 ≤ (1 : Reg).val ∧
    ({ State.reset with pc := 0xFFC, i := 0xFFE } : State).i = ({ State.reset with pc := 0xFFC, i := 0xFFE } : State).pc + 2 ∧
    ({ State.reset with pc := 0xFFC, i := 0xFFE } : State).pc.toNat + 2 + (1 : Reg).val ≤ 0xFFF := by decide
/-- R236 at any `I`, the last rows of memory, and one row beyond it. -/
theorem witness_DrawTogglesTheSpriteBits :
    (0 : BitVec 4) = 0 ∧ ({ State.reset with i := 0xFFB } : State).i.toNat + (5 : BitVec 4).toNat - 1 ≤ 0xFFF ∧
    (5 : BitVec 4) ≠ 0 ∧ 0xFFF < ({ State.reset with i := 0xFFC } : State).i.toNat + (5 : BitVec 4).toNat - 1 := by decide
/-- Both ends of the collision, D7 and D5: a pixel turned off, and none. -/
theorem witness_DrawTogglesTheSpriteBits_collision :
    drawn [] [0xC0] 0xD011 0 = some (3, 0) ∧
    (stepOn ({ State.reset with i := 0x300, fb := State.reset.fb.set 0 2 }.storeBytes 0x300 [0xC0]) 0xD011).map
      (fun t => (t.fb[(0 : Fin 32)], t.reg VF)) = some (1, 1) := by decide

/-- A sprite row 0xC0 at `I` = 0x300, and row 0 of the framebuffer. -/
def sprite (row0 : BitVec 64) : State :=
  { State.reset with i := 0x300, fb := State.reset.fb.set 0 row0 }.storeBytes 0x300 [0xC0]

/-- The second draw, with a cell off before the first, and with all cells on: VF 1 and 0 (log 19). -/
theorem witness_DrawTwiceRestoresTheScreen :
    (sprite 2).i.toNat + (1 : BitVec 4).toNat - 1 ≤ 0xFFF ∧
    ((sprite 2).fb.pixel 0 0 = false ∧ spriteBit (sprite 2) 0 0 1 0 0 = true) ∧
    ((sprite 3).fb.pixel 0 0 = true ∧ (sprite 3).fb.pixel 0 1 = true) ∧
    (∃ t, exec (.drwVxVyN 1 1 1) (sprite 2) = .next t ∧ t.reg 1 = (sprite 2).reg 1) ∧
    ∃ t, exec (.drwVxVyN 1 1 1) (sprite 3) = .next t ∧ t.reg 1 = (sprite 3).reg 1 :=
  ⟨by decide, by decide, by decide, ⟨_, rfl, by decide⟩, ⟨_, rfl, by decide⟩⟩
/-- The case of log 19, worked by hand from the pseudocode of R233: the row 0xC0 over its two cells both on turns them off
with VF 1, and the same row over the two cells now off turns them on with VF 0. -/
theorem witness_DrawTwiceRestoresTheScreen_lit :
    (stepOn (sprite 3) 0xD011).map (fun t => (t.fb[(0 : Fin 32)], t.reg VF)) = some (0, 1) ∧
    (stepOn (sprite 0) 0xD011).map (fun t => (t.fb[(0 : Fin 32)], t.reg VF)) = some (3, 0) := by decide
theorem witness_DrewTellsOfACompletedDraw :
    (after (with_ 0x00E0) [.step]).map (·.drew) = some true ∧
    (after { with_ 0xD001 with i := 0x1000, drew := true } [.step]).map (·.drew) = some false := by decide
theorem witness_KeyEventEndsTheWait :
    waiting.status = .waitingForKey ∧ State.reset.status = .running ∧ halted.status = .halted := by decide
theorem witness_SoundTimerReadByNoInstruction : exec (.ldStVx 2) State.reset = .next { State.reset with pc := 0x202 } := rfl
/-- The first and last byte of the font of R352, and the bytes beside it. -/
theorem witness_ResetSetsEveryElement :
    State.reset.readByte 0x050 = 0xF0 ∧ State.reset.readByte 0x09F = 0x80 ∧ State.reset.readByte 0x04F = 0 ∧
    State.reset.readByte 0x0A0 = 0 ∧ State.reset.readByte 0x082 = 0xF0 ∧ State.reset.readByte 0x084 = 0xF0 := by decide
theorem witness_LoadRomCopiesTheImage :
    State.reset.memOk ∧ State.reset.bootOpen = true ∧ ([] : List Byte).length ≤ 3584 ∧
    (List.replicate 3584 (0x60 : Byte)).length ≤ 3584 := by
  refine ⟨by decide, rfl, by decide, by rw [List.length_replicate]⟩
theorem witness_LoadRomFailsOrIsRefused :
    State.reset.bootOpen = true ∧ 3584 < (List.replicate 3585 (0x60 : Byte)).length ∧ halted.bootOpen = false := by
  refine ⟨rfl, by rw [List.length_replicate]; decide, rfl⟩
theorem witness_StepKeepsTheInvariant : halted.Inv ∧ step halted = .next halted := ⟨halted_inv, rfl⟩
/-- One change of each row of the table of R55. -/
theorem witness_StatusChangesOnlyAsTabled :
    (after (with_ 0xF50A) [.step]).map (·.status) = some .waitingForKey ∧
    (after waiting [.keyEvent 2]).map (·.status) = some .running ∧
    (after State.reset [.step]).map (·.status) = some .halted ∧
    (after halted [.reset]).map (·.status) = some .running := by decide
theorem witness_StatusChangesOnlyAsTabled_loadRom :
    State.reset.Inv ∧ ∃ t, applyEvent (.loadRom (List.replicate 3585 0x60)) State.reset = .next t ∧ t.status ≠ State.reset.status :=
  ⟨⟨by decide, by decide, by decide, by decide, by decide, by decide, by decide, by decide, fun _ => rfl⟩,
    _, by rw [applyEvent, loadRomEvent, if_pos (show State.reset.bootOpen = true from rfl), if_neg (by rw [List.length_replicate]; decide)], by decide⟩
theorem witness_RegistersWrittenOnlyAsTabled :
    ∃ t, exec (.ldVxNn 3 1) State.reset = .next t ∧ t.reg 3 ≠ State.reset.reg 3 := ⟨_, rfl, by decide⟩
theorem witness_FramebufferWrittenOnlyByDrawing :
    ∃ t, applyEvent .step { with_ 0x00E0 with fb := Vector.replicate 32 1 } = .next t ∧ t.fb ≠ Vector.replicate 32 1 :=
  ⟨_, rfl, by decide⟩
theorem witness_MemoryWrittenOnlyByStores :
    ∃ t, exec (.ldMemVx 0) { regs [(0, 7)] with i := 0x300 } = .next t ∧
      t.readByte 0x300 ≠ ({ regs [(0, 7)] with i := 0x300 } : State).readByte 0x300 := ⟨_, rfl, by decide⟩
theorem witness_SpecialStateWrittenOnlyAsNamed :
    (∃ t, exec (.ldINnn 0x300) State.reset = .next t ∧ t.i ≠ State.reset.i) ∧
    (∃ t, exec (.call 0x300) State.reset = .next t ∧ t.stack ≠ State.reset.stack ∧ t.sp ≠ State.reset.sp) ∧
    (∃ t, exec (.ldDtVx 1) (regs [(1, 7)]) = .next t ∧ t.dt ≠ (regs [(1, 7)]).dt) ∧
    (∃ t, exec (.ldStVx 1) (regs [(1, 7)]) = .next t ∧ t.st ≠ (regs [(1, 7)]).st) ∧
    ∃ t, exec (.ldVxK 1) State.reset = .next t ∧ t.waitX ≠ State.reset.waitX :=
  ⟨⟨_, rfl, by decide⟩, ⟨_, rfl, by decide, by decide⟩, ⟨_, rfl, by decide⟩, ⟨_, rfl, by decide⟩, ⟨_, rfl, by decide⟩⟩
theorem witness_StaleStackSlotsNeverMatter :
    SameButStale { State.reset with sp := 1 } { State.reset with sp := 1, stack := State.reset.stack.set 1 7 } ∧
    ({ State.reset with sp := 1 } : State) ≠ { State.reset with sp := 1, stack := State.reset.stack.set 1 7 } :=
  ⟨⟨rfl, by decide⟩, by decide⟩
theorem witness_QuietStates :
    (halted.drew = false ∧ halted.bootOpen = false ∧ halted.status = .halted) ∧
    (waiting.drew = false ∧ waiting.bootOpen = false ∧ waiting.status = .waitingForKey) ∧
    ({ with_ 0x1200 with bootOpen := false } : State).Executes (.jp 0x200) ∧
    ({ with_ 0x1200 with bootOpen := false } : State).pc.toNat = (0x200 : BitVec 12).toNat :=
  ⟨by decide, by decide, ⟨rfl, by decide, by decide⟩, by decide⟩
/-- An empty image and the longest one; the default font lies below 0x200. -/
theorem witness_ResetThenLoadRomBoots :
    ([] : List Byte).length ≤ 3584 ∧ (List.replicate 3584 (0x60 : Byte)).length ≤ 3584 ∧ State.reset.config.wf ∧
    0x200 + ([0x60, 0x05] : List Byte).length ≤ 0x202 := by
  refine ⟨by decide, by rw [List.length_replicate], by decide, by decide⟩

end Sys2Proof.Tests
end

section
/-! PROOF of O12: the errors of a `Step` are precise. -/

namespace Sys2Proof.Machine

variable {s t : State}

/-- The three families of R300 an instruction can fail in, read off `CanRaise`. -/
theorem CanRaise.cases {i : Instr} {k : ErrKind} (h : CanRaise i k) :
    (k = .stackOverflow ∧ ∃ nnn, i = .call nnn) ∨ (k = .stackUnderflow ∧ i = .ret) ∨
    (k = .outOfBounds ∧ ((∃ x y n, i = .drwVxVyN x y n) ∨ (∃ x, i = .ldBVx x) ∨ (∃ x, i = .ldMemVx x) ∨
      ∃ x, i = .ldVxMem x)) := by
  cases i with
  | call nnn => exact .inl ⟨h, nnn, rfl⟩
  | ret => exact .inr (.inl ⟨h, rfl⟩)
  | drwVxVyN x y n => exact .inr (.inr ⟨h, .inl ⟨x, y, n, rfl⟩⟩)
  | ldBVx x => exact .inr (.inr ⟨h, .inr (.inl ⟨x, rfl⟩)⟩)
  | ldMemVx x => exact .inr (.inr ⟨h, .inr (.inr (.inl ⟨x, rfl⟩))⟩)
  | ldVxMem x => exact .inr (.inr ⟨h, .inr (.inr (.inr ⟨x, rfl⟩))⟩)
  | _ => exact False.elim h

/-- An instruction reaches `Halted` only by raising an error of its own (R305). -/
theorem exec_halts {i : Instr} (hs : s.status ≠ .halted) (h : exec i s = .next t) (ht : t.status = .halted) :
    ∃ k op a, CanRaise i k ∧ t = s.raise k op a := by
  rcases exec_cases h with ⟨hst, _⟩ | ⟨_, _, hst, _⟩ | ⟨k, op, a, hk, _, _, rfl⟩
  · exact absurd (hst.symm.trans ht) hs
  · cases hst.symm.trans ht
  · exact ⟨k, op, a, hk, rfl⟩

/-- A `Step` from `Running` into `Halted` is a raise (R305) by the fetch, the decoder or the executing instruction
(R306). -/
theorem stepEvent_halts (hs : s.status = .running) (h : stepEvent s = .next t) (ht : t.status = .halted) :
    ∃ k op a, t = s.beginStep.raise k op a ∧
      ((k = .outOfBounds ∧ 0xFFE < s.pc.toNat ∧ op = 0) ∨
       (k = .unknownInstruction ∧ ∀ i, ¬ s.Executes i) ∨
       ∃ i, s.Executes i ∧ CanRaise i k) := by
  rcases stepEvent_cases s with ⟨hn, _⟩ | ⟨_, hp, he⟩ | ⟨_, _, hno, he⟩ | ⟨i, hi, he⟩
  · exact absurd hs hn
  · cases he.symm.trans h
    exact ⟨_, _, _, rfl, .inl ⟨rfl, hp, rfl⟩⟩
  · cases he.symm.trans h
    exact ⟨_, _, _, rfl, .inr (.inl ⟨rfl, hno⟩)⟩
  · obtain ⟨k, op, a, hk, rfl⟩ := exec_halts (by simp [hs]) (he.symm.trans h) ht
    exact ⟨k, op, a, rfl, .inr (.inr ⟨i, hi, hk⟩)⟩

/-- Settles O12: the state is a raise at `beginStep`, and the kind follows from who raised it. -/
theorem errorsArePrecise : Obligations.ErrorsArePrecise := by
  intro s t hs h ht
  obtain ⟨k, op, a, rfl, hk⟩ := stepEvent_halts hs h ht
  refine ⟨rfl, rfl, ?_⟩
  rcases hk with hfetch | hdecode | ⟨i, hi, hk⟩
  · exact .inl hfetch
  · exact .inr (.inl hdecode)
  · rcases hk.cases with ⟨rfl, nnn, rfl⟩ | ⟨rfl, rfl⟩ | ⟨rfl, hmem⟩
    · exact .inr (.inr (.inl ⟨rfl, nnn, hi⟩))
    · exact .inr (.inr (.inr (.inl ⟨rfl, hi⟩)))
    · refine .inr (.inr (.inr (.inr ⟨rfl, ?_⟩)))
      rcases hmem with ⟨x, y, n, rfl⟩ | ⟨x, rfl⟩ | ⟨x, rfl⟩ | ⟨x, rfl⟩
      · exact .inl ⟨x, y, n, hi⟩
      · exact .inr (.inl ⟨x, hi⟩)
      · exact .inr (.inr (.inl ⟨x, hi⟩))
      · exact .inr (.inr (.inr ⟨x, hi⟩))

end Sys2Proof.Machine
end

section
/-! PROOF of O48 and O49: the machine after reset has the invariant, and every step keeps it. -/

namespace Sys2Proof.Machine

variable {s t : State}

/-- What an error-free state needs for the invariant: its latch clauses follow from the cleared latch. -/
theorem State.Inv.of_noError (hm : s.memOk) (hp : s.pc.toNat ≤ 0x10FE)
    (hk : ∀ k : Fin 16, (s.stack[k]).toNat ≤ 0x1000) (hw : s.status = .waitingForKey → s.pc.toNat ≤ 0xFFE)
    (hs : s.status ≠ .halted) (he : s.err = ErrLatch.clear) (hb : s.bootOpen = true → s = s.afterReset) : s.Inv where
  memOk := hm
  pcBound := hp
  stackBound := hk
  waitFetched := hw
  latchIffHalted := by simp [hs, he, ErrLatch.clear]
  latchClear _ := he
  latchPc h := absurd h hs
  latchAddr := by simp [he, ErrLatch.clear]
  bootIsReset := hb

/-- The invariant speaks of memory, `PC`, the stack, `STATUS` and the latch only, outside the boot window. -/
theorem State.Inv.congr (h : s.Inv) (hm : t.memOk) (hp : t.pc = s.pc) (hk : t.stack = s.stack)
    (hs : t.status = s.status) (he : t.err = s.err) (hb : t.bootOpen = true → t = t.afterReset) : t.Inv where
  memOk := hm
  pcBound := hp ▸ h.pcBound
  stackBound := hk ▸ h.stackBound
  waitFetched := by rw [hs, hp]; exact h.waitFetched
  latchIffHalted := by rw [hs, he]; exact h.latchIffHalted
  latchClear := by rw [he]; exact h.latchClear
  latchPc := by rw [hs, he, hp]; exact h.latchPc
  latchAddr := by rw [he]; exact h.latchAddr
  bootIsReset := hb

/-- Outside `Halted` the latch is clear (R58). -/
theorem State.Inv.err_clear (h : s.Inv) (hs : s.status ≠ .halted) : s.err = ErrLatch.clear :=
  h.latchClear (by_contra fun hk => hs (h.latchIffHalted.2 hk))

/-- In the boot window of a state with the invariant the core is `Running` (R355). -/
theorem State.Inv.running_of_bootOpen (hi : s.Inv) (hb : s.bootOpen = true) : s.status = .running :=
  congrArg State.status (hi.bootIsReset hb)

theorem State.afterReset_inv (s : State) : s.afterReset.Inv :=
  .of_noError s.afterReset_memOk (by simp) (by simp [State.afterReset, State.resetOf]) (by simp) (by simp) rfl
    fun _ => rfl

/-- A raise outside the boot window, with an address that fits its kind (R58, R305). -/
theorem State.Inv.raise (h : s.Inv) (hb : s.bootOpen = false) {k : ErrKind} (op : Word) {a : Nat} (hk : k ≠ .none)
    (hin : k = .outOfBounds → memSize ≤ a ∧ a < 2 ^ 17) (hout : k ≠ .outOfBounds → a = 0) : (s.raise k op a).Inv where
  memOk := h.memOk
  pcBound := h.pcBound
  stackBound := h.stackBound
  waitFetched := by simp
  latchIffHalted := by simp [hk]
  latchClear := fun h => absurd h hk
  latchPc _ := rfl
  latchAddr := by
    by_cases hkb : k = .outOfBounds
    · obtain ⟨hlo, hhi⟩ := hin hkb
      have hmod : a % 131072 = a := Nat.mod_eq_of_lt hhi
      simpa [hkb, hmod] using hlo
    · simp [hkb, hout hkb]
  bootIsReset := by simp [hb]

theorem CanRaise.ne_none {i : Instr} {k : ErrKind} (h : CanRaise i k) : k ≠ .none := by
  rcases h.cases with ⟨rfl, _⟩ | ⟨rfl, _⟩ | ⟨rfl, _⟩ <;> simp

theorem word_toNat_add_le (a b : Word) : (a + b).toNat ≤ a.toNat + b.toNat := by
  rw [BitVec.toNat_add]; exact Nat.mod_le _ _

theorem zext16_toNat (nnn : BitVec 12) : (zext16 nnn).toNat = nnn.toNat :=
  BitVec.toNat_setWidth_of_le (by decide)

/-- A fetched instruction leaves `PC` at most at 0x10FE, the target of BFFF with `V[0]` = 0xFF (R45, R136). -/
theorem exec_pc_le {i : Instr} (hp : s.pc.toNat ≤ 0xFFE) (hk : ∀ k : Fin 16, (s.stack[k]).toNat ≤ 0x1000)
    (h : exec i s = .next t) : t.pc.toNat ≤ 0x10FE := by
  rcases exec_pc h with h | h | h | ⟨nnn, h⟩ | ⟨nnn, h⟩ | ⟨k, h⟩ <;> rw [h]
  · omega
  · exact (word_toNat_add_le _ _).trans (show s.pc.toNat + 2 ≤ 0x10FE by omega)
  · exact (word_toNat_add_le _ _).trans (show s.pc.toNat + 4 ≤ 0x10FE by omega)
  · have := nnn.isLt
    rw [zext16_toNat]; omega
  · have := nnn.isLt; have := (s.reg 0).isLt
    refine (word_toNat_add_le _ _).trans ?_
    rw [zext16_toNat, BitVec.toNat_setWidth_of_le (by decide)]; omega
  · exact (hk k).trans (by decide)

/-- A return address a fetched call pushes is at most 0x1000 (R133). -/
theorem exec_stack_le {i : Instr} (hp : s.pc.toNat ≤ 0xFFE) (hk : ∀ k : Fin 16, (s.stack[k]).toNat ≤ 0x1000)
    (h : exec i s = .next t) (k : Fin 16) : (t.stack[k]).toNat ≤ 0x1000 := by
  rcases exec_stack h k with h | h <;> rw [h]
  · exact hk k
  · exact (word_toNat_add_le _ _).trans (show s.pc.toNat + 2 ≤ 0x1000 by omega)

/-- A fetched instruction, run outside the boot window, keeps the invariant. -/
theorem exec_inv {i : Instr} (hi : s.Inv) (hs : s.status = .running) (hp : s.pc.toNat ≤ 0xFFE)
    (hb : s.bootOpen = false) (h : exec i s = .next t) : t.Inv := by
  have hclear := hi.err_clear (by simp [hs])
  have hmem := exec_memOk hi.memOk h
  have hpc := exec_pc_le hp hi.stackBound h
  have hstack := exec_stack_le hp hi.stackBound h
  obtain ⟨-, -, -, hopen⟩ := exec_environment h
  have hboot : t.bootOpen = true → t = t.afterReset := by simp [hopen, hb]
  rcases exec_cases h with ⟨hst, herr⟩ | ⟨x, rfl, hst, herr⟩ | ⟨k, op, a, hk, hin, hout, rfl⟩
  · exact .of_noError hmem hpc hstack (by simp [hst, hs]) (by simp [hst, hs]) (herr.trans hclear) hboot
  · refine .of_noError hmem hpc hstack (fun _ => ?_) (by simp [hst]) (herr.trans hclear) hboot
    cases h
    exact hp
  · exact hi.raise hb op hk.ne_none hin hout

theorem State.Inv.beginStep (h : s.Inv) : s.beginStep.Inv := h.congr h.memOk rfl rfl rfl rfl (by simp)

theorem stepEvent_inv (hi : s.Inv) (h : stepEvent s = .next t) : t.Inv := by
  rcases stepEvent_cases s with ⟨_, he⟩ | ⟨_, _, he⟩ | ⟨_, _, _, he⟩ | ⟨i, ⟨hs, hp, _⟩, he⟩
  · cases he.symm.trans h
    exact hi.beginStep
  · cases he.symm.trans h
    have := s.pc.isLt
    exact hi.beginStep.raise rfl _ (by simp) (fun _ => ⟨by omega, by simp only [memSize]; omega⟩) (by simp)
  · cases he.symm.trans h
    exact hi.beginStep.raise rfl _ (by simp) (by simp) (fun _ => rfl)
  · exact exec_inv hi.beginStep hs hp rfl (he.symm.trans h)

/-- The key event that ends a wait: `PC` was fetched, so it stays in its bound (R266). -/
theorem keyEvent_inv (k : BitVec 4) (hi : s.Inv) : (keyEvent k s).Inv := by
  by_cases hw : s.status = .waitingForKey
  · rw [keyEvent_waiting k hw]
    have hp := hi.waitFetched hw
    refine .of_noError hi.memOk ?_ hi.stackBound (by simp) (by simp) (hi.err_clear (by simp [hw])) fun hb => ?_
    · exact (word_toNat_add_le _ _).trans (show s.pc.toNat + 2 ≤ 0x10FE by omega)
    · exact absurd (hi.running_of_bootOpen hb) (by simp [hw])
  · rwa [keyEvent_notWaiting k hw]

/-- A too large image halts the machine the boot window shows as `Reset` left it (R357). -/
theorem romTooLarge_inv (hi : s.Inv) (hb : s.bootOpen = true) :
    State.Inv { s with
      status := .halted, err := { kind := .romTooLarge, pc := 0x200, opcode := 0, addr := 0 }, bootOpen := false } where
  memOk := hi.memOk
  pcBound := hi.pcBound
  stackBound := hi.stackBound
  waitFetched := by simp
  latchIffHalted := by simp
  latchClear := by simp
  latchPc _ := (congrArg State.pc (hi.bootIsReset hb)).symm
  latchAddr := by simp
  bootIsReset := by simp

theorem applyEvent_inv {e : Event} (hi : s.Inv) (h : applyEvent e s = .next t) : t.Inv := by
  rcases applyEvent_cases h with ⟨-, rfl⟩ | ⟨bytes, -, -, hlen, rfl⟩ | ⟨-, -, hb, -, rfl⟩ | ⟨-, h⟩ | ⟨-, rfl⟩ |
    ⟨k, -, rfl⟩ | ⟨keys, -, rfl⟩
  · exact s.afterReset_inv
  · have hmem := s.memOk_storeBytes hi.memOk bytes (a := romBase) (by simp only [romBase, romMax, memSize] at *; omega)
    exact hi.congr hmem rfl rfl rfl rfl (by simp)
  · exact romTooLarge_inv hi hb
  · exact stepEvent_inv hi h
  · exact hi.congr hi.memOk rfl rfl rfl rfl (by simp [tickEvent])
  · exact keyEvent_inv k hi
  · exact hi.congr hi.memOk rfl rfl rfl rfl fun hb => congrArg (fun u => { u with keys := keys }) (hi.bootIsReset hb)

/-- Settles O48: `State.reset` is what `Reset` makes of it. -/
theorem resetHasTheInvariant : Obligations.ResetHasTheInvariant :=
  State.reset.afterReset_inv

/-- Settles O49: a step is an event, and every event keeps the invariant; taking the event from the waiting ones keeps
it too. -/
theorem stepKeepsTheInvariant : Obligations.StepKeepsTheInvariant := by
  intro s s' hi h
  rcases step_eq_applyEvent s with ⟨_, he⟩ | ⟨e, es, _, he⟩
  · exact applyEvent_inv hi (he.symm.trans h)
  · have hi' : State.Inv { s with events := es } :=
      hi.congr hi.memOk rfl rfl rfl rfl fun hb => congrArg (fun u => { u with events := es }) (hi.bootIsReset hb)
    exact applyEvent_inv hi' (he.symm.trans h)

end Sys2Proof.Machine
end

section
/-! PROOF of O17, on the rules of 2NNN and 00EE: what each answers with room on the stack and without. -/

namespace Sys2Proof.Machine

variable {s t : State}

theorem exec_call_ok (nnn : BitVec 12) (h : s.sp.val < 16) :
    exec (.call nnn) s = .next { s with
      stack := s.stack.set s.sp.val (s.pc + 2), sp := ⟨s.sp.val + 1, by omega⟩, pc := zext16 nnn } := by
  simp only [exec, execCall, s.push_ok h, State.jump]

theorem exec_call_full (nnn : BitVec 12) (h : s.sp.val = 16) :
    exec (.call nnn) s = .next (s.raise .stackOverflow (encode (.call nnn)) 0) := by
  simp only [exec, execCall, s.push_full h]

theorem exec_ret_ok (h : 0 < s.sp.val) :
    exec .ret s = .next { s with sp := ⟨s.sp.val - 1, by omega⟩, pc := s.stack[s.sp.val - 1] } := by
  simp only [exec, execRet, s.pop_ok h, State.jump]

theorem exec_ret_empty (h : s.sp.val = 0) : exec .ret s = .next (s.raise .stackUnderflow (encode .ret) 0) := by
  simp only [exec, execRet, s.pop_empty h]

/-- A call raises or pushes the return address, and nothing else. -/
theorem exec_call_cases {nnn : BitVec 12} (h : exec (.call nnn) s = .next t) :
    t = s.raise .stackOverflow (encode (.call nnn)) 0 ∨ ∃ hd : s.sp.val < 16, t = { s with
      stack := s.stack.set s.sp.val (s.pc + 2), sp := ⟨s.sp.val + 1, by omega⟩, pc := zext16 nnn } := by
  by_cases hd : s.sp.val < 16
  · cases (exec_call_ok nnn hd).symm.trans h
    exact .inr ⟨hd, rfl⟩
  · cases (exec_call_full nnn (by omega)).symm.trans h
    exact .inl rfl

/-- A return raises or pops the top slot into `PC`, and nothing else. -/
theorem exec_ret_cases (h : exec .ret s = .next t) :
    t = s.raise .stackUnderflow (encode .ret) 0 ∨
    ∃ hd : 0 < s.sp.val, t = { s with sp := ⟨s.sp.val - 1, by omega⟩, pc := s.stack[s.sp.val - 1] } := by
  by_cases hd : 0 < s.sp.val
  · cases (exec_ret_ok hd).symm.trans h
    exact .inr ⟨hd, rfl⟩
  · cases (exec_ret_empty (by omega)).symm.trans h
    exact .inl rfl

/-- Settles O17: the return pops the slot the call has just pushed, and the call wrote no slot below it. -/
theorem callThenReturnComesBack : Obligations.CallThenReturnComesBack := by
  intro nnn s hsp
  refine ⟨_, _, exec_call_ok nnn hsp, exec_ret_ok (Nat.succ_pos _), Vector.getElem_set_self _, ?_, fun k hk => ?_⟩
  · simp only [Nat.add_sub_cancel, Vector.getElem_set_self]
  · have hne : s.sp.val ≠ k.val := Nat.ne_of_gt hk
    exact (Vector.getElem_set_ne hsp k.isLt hne).symm

end Sys2Proof.Machine
end

section
/-! PROOF of O55: no step depends on a stack slot at or above the depth. -/

namespace Sys2Proof.Machine

variable {s t : State}

/-- Two outcomes are alike but for stale stack slots: next states that are, or the same refusal. -/
inductive SameButStaleOutcome : Result → Result → Prop
  | next {s t : State} : SameButStale s t → SameButStaleOutcome (.next s) (.next t)
  | refused (r : Refusal) : SameButStaleOutcome (.refused r) (.refused r)

theorem SameButStaleOutcome.of_next {o : Result} : SameButStaleOutcome (.next s) o → ∃ t, o = .next t ∧ SameButStale s t
  | .next h => ⟨_, rfl, h⟩

theorem SameButStaleOutcome.of_refused {r : Refusal} {o : Result} : SameButStaleOutcome (.refused r) o → o = .refused r
  | .refused _ => rfl

theorem SameButStale.refl (s : State) : SameButStale s s := ⟨rfl, fun _ _ => rfl⟩

/-- The other state is this one with another stack, alike below the depth. -/
theorem SameButStale.exists_stack (h : SameButStale s t) :
    ∃ stk : Vector Word 16, t = { s with stack := stk } ∧ ∀ k : Fin 16, k.val < s.sp.val → s.stack[k] = stk[k] :=
  ⟨t.stack, h.rest, h.live⟩

/-- What both states read alike: an access raises the same error in both, or goes on in both. -/
theorem SameButStale.access (h : SameButStale s t) (i : Instr) (a n : Nat) {ok ok' : State} (hok : SameButStale ok ok') :
    SameButStaleOutcome (s.access i a n ok) (t.access i a n ok') := by
  obtain ⟨stk, rfl, hlive⟩ := h.exists_stack
  by_cases hr : n = 0 ∨ a + n ≤ memSize
  · rw [State.access_ok _ hr, State.access_ok _ hr]
    exact .next hok
  · rw [State.access_bad _ (by omega) (by omega), State.access_bad _ (by omega) (by omega)]
    exact .next ⟨rfl, hlive⟩

/-- A call overflows at the same depth and pushes the same address; the slots below it are as before. -/
theorem exec_call_sameButStale (nnn : BitVec 12) (h : SameButStale s t) :
    SameButStaleOutcome (exec (.call nnn) s) (exec (.call nnn) t) := by
  obtain ⟨stk, rfl, hlive⟩ := h.exists_stack
  by_cases hd : s.sp.val < 16
  · rw [exec_call_ok nnn hd, exec_call_ok (s := { s with stack := stk }) nnn hd]
    refine .next ⟨rfl, fun k hk => ?_⟩
    simp only [Fin.getElem_fin, Vector.getElem_set]
    split
    · rfl
    · exact hlive k (by simp only at hk; omega)
  · have hfull : s.sp.val = 16 := by omega
    rw [exec_call_full nnn hfull, exec_call_full (s := { s with stack := stk }) nnn hfull]
    exact .next ⟨rfl, hlive⟩

/-- A return pops the same live slot. -/
theorem exec_ret_sameButStale (h : SameButStale s t) : SameButStaleOutcome (exec .ret s) (exec .ret t) := by
  obtain ⟨stk, rfl, hlive⟩ := h.exists_stack
  by_cases hd : 0 < s.sp.val
  · have htop : s.stack[s.sp.val - 1] = stk[s.sp.val - 1] := hlive ⟨s.sp.val - 1, by omega⟩ (by simp only; omega)
    rw [exec_ret_ok hd, exec_ret_ok (s := { s with stack := stk }) hd, htop]
    exact .next ⟨rfl, fun k hk => hlive k (by simp only at hk; omega)⟩
  · have hempty : s.sp.val = 0 := by omega
    rw [exec_ret_empty hempty, exec_ret_empty (s := { s with stack := stk }) hempty]
    exact .next ⟨rfl, hlive⟩

theorem SameButStale.raise (h : SameButStale s t) (k : ErrKind) (op : Word) (a : Nat) :
    SameButStale (s.raise k op a) (t.raise k op a) := by
  obtain ⟨stk, rfl, hlive⟩ := h.exists_stack
  exact ⟨rfl, hlive⟩

theorem SameButStale.dropRnd (h : SameButStale s t) : SameButStale s.dropRnd t.dropRnd := by
  obtain ⟨stk, rfl, hlive⟩ := h.exists_stack
  rw [State.dropRnd, State.dropRnd]
  cases s.rndInputs <;> exact ⟨rfl, hlive⟩

/-- The result and the step past the instruction, on two states alike but for stale slots. -/
theorem SameButStale.setReg_advance (h : SameButStale s t) (x : Reg) (b : Byte) :
    SameButStale (s.setReg x b).advance (t.setReg x b).advance := by
  obtain ⟨stk, rfl, hlive⟩ := h.exists_stack
  exact ⟨rfl, hlive⟩

/-- Only 2NNN and 00EE look at the stack; every other instruction passes it on. -/
theorem exec_sameButStale (i : Instr) (h : SameButStale s t) : SameButStaleOutcome (exec i s) (exec i t) := by
  obtain ⟨stk, rfl, hlive⟩ := h.exists_stack
  cases i with
  | call nnn => exact exec_call_sameButStale nnn h
  | ret => exact exec_ret_sameButStale h
  | drwVxVyN x y n =>
    have hread := State.readBytes_congr (s := s) (t := { s with stack := stk }) rfl rfl s.i.toNat n
    refine h.access _ _ _ ?_
    rw [hread]
    exact ⟨rfl, hlive⟩
  | ldBVx x => exact h.access _ _ _ ⟨rfl, hlive⟩
  | ldMemVx x => exact h.access _ _ _ ⟨rfl, hlive⟩
  | ldVxMem x => exact h.access _ _ _ ⟨rfl, hlive⟩
  | rndVxNn x nn => exact .next (h.dropRnd.setReg_advance x (s.nextRnd &&& nn))
  | _ => exact .next ⟨rfl, hlive⟩

theorem cycle_sameButStale (h : SameButStale s t) : SameButStaleOutcome (cycle s) (cycle t) := by
  have hfetch : t.fetch = s.fetch := by rw [h.rest]; rfl
  cases hs : s.fetch with
  | error bad =>
    simp only [cycle, hfetch, hs]
    exact .next (h.raise _ _ _)
  | ok op =>
    cases hd : decodeWord op with
    | error e =>
      simp only [cycle, hfetch, hs, hd]
      exact .next (h.raise _ _ _)
    | ok i =>
      simp only [cycle, hfetch, hs, hd]
      exact exec_sameButStale i h

theorem stepEvent_sameButStale (h : SameButStale s t) : SameButStaleOutcome (stepEvent s) (stepEvent t) := by
  obtain ⟨stk, rfl, hlive⟩ := h.exists_stack
  have hbegin : SameButStale s.beginStep (State.beginStep { s with stack := stk }) := ⟨rfl, hlive⟩
  by_cases hs : s.status = .running
  · rw [stepEvent_running hs, stepEvent_running (s := { s with stack := stk }) hs]
    exact cycle_sameButStale hbegin
  · rw [stepEvent_notRunning hs, stepEvent_notRunning (s := { s with stack := stk }) hs]
    exact .next hbegin

/-- `Reset` clears the slots, and no event but `Step` looks at the stack. -/
theorem applyEvent_sameButStale (e : Event) (h : SameButStale s t) :
    SameButStaleOutcome (applyEvent e s) (applyEvent e t) := by
  obtain ⟨stk, rfl, hlive⟩ := h.exists_stack
  cases e with
  | reset => exact .next (.refl _)
  | loadRom bytes =>
    simp only [applyEvent, loadRomEvent]
    split_ifs
    · exact .next ⟨rfl, hlive⟩
    · exact .next ⟨rfl, hlive⟩
    · exact .refused _
  | step => exact stepEvent_sameButStale h
  | tick => exact .next ⟨rfl, hlive⟩
  | keyEvent k =>
    refine .next ?_
    by_cases hw : s.status = .waitingForKey
    · rw [keyEvent_waiting k hw, keyEvent_waiting (s := { s with stack := stk }) k hw]
      exact ⟨rfl, hlive⟩
    · rw [keyEvent_notWaiting k hw, keyEvent_notWaiting (s := { s with stack := stk }) k hw]
      exact h
  | setKeys keys => exact .next ⟨rfl, hlive⟩

theorem step_of_events_nil (h : s.events = []) : step s = applyEvent .step s := by
  simp only [step, nextEvent, h]

theorem step_of_events_cons {e : Event} {es : List Event} (h : s.events = e :: es) :
    step s = applyEvent e { s with events := es } := by
  simp only [step, nextEvent, h]

/-- The waiting events are no stack slots, so both states take the same event. -/
theorem step_sameButStale (h : SameButStale s t) : SameButStaleOutcome (step s) (step t) := by
  have hevents : t.events = s.events := by rw [h.rest]
  cases he : s.events with
  | nil =>
    rw [step_of_events_nil he, step_of_events_nil (hevents.trans he)]
    exact applyEvent_sameButStale .step h
  | cons e es =>
    rw [step_of_events_cons he, step_of_events_cons (hevents.trans he)]
    obtain ⟨stk, rfl, hlive⟩ := h.exists_stack
    exact applyEvent_sameButStale e ⟨rfl, hlive⟩

/-- Settles O55: the two steps have outcomes alike but for stale slots. -/
theorem staleStackSlotsNeverMatter : Obligations.StaleStackSlotsNeverMatter := by
  intro s t h
  have hstep := step_sameButStale h
  exact ⟨fun s' hs => (hs ▸ hstep).of_next, fun r hs => (hs ▸ hstep).of_refused⟩

end Sys2Proof.Machine
end

section
/-! PROOF of O51 and O54: which instruction writes which part of the state. -/

namespace Sys2Proof.Machine

variable {s t : State}

/-- The update most register writers end in leaves every other register. -/
theorem setReg_advance_reg (s : State) {x r : Reg} (b : Byte) (h : r ≠ x) : (s.setReg x b).advance.reg r = s.reg r := by
  simp [State.advance_eq, h]

/-- The update the flag writers end in leaves every register but its destination and VF. -/
theorem setWithFlag_advance_reg (s : State) {x r : Reg} (b : Byte) (f : Bool) (h : ¬ (r = x ∨ r = VF)) :
    (s.setWithFlag x b f).advance.reg r = s.reg r := by
  obtain ⟨hx, hvf⟩ := not_or.1 h
  simp [State.advance_eq, State.setWithFlag_eq, hx, hvf]

/-- A register the table of writers does not name keeps its value (R42). -/
theorem exec_reg_of_not_mayWrite {i : Instr} {r : Reg} (hr : ¬ MayWrite i r) (h : exec i s = .next t) :
    t.reg r = s.reg r := by
  cases i with
  | call nnn => rcases exec_call_cases h with rfl | ⟨_, rfl⟩ <;> rfl
  | ret => rcases exec_ret_cases h with rfl | ⟨_, rfl⟩ <;> rfl
  | ldVxNn x nn | addVxNn x nn | ldVxVy x y | orVxVy x y | andVxVy x y | xorVxVy x y | ldVxDt x =>
    cases h
    exact setReg_advance_reg s _ hr
  | rndVxNn x nn =>
    cases h
    rw [setReg_advance_reg s.dropRnd _ hr, State.dropRnd_reg]
  | addVxVy x y | subVxVy x y | shrVxVy x y | subnVxVy x y | shlVxVy x y =>
    cases h
    exact setWithFlag_advance_reg s _ _ hr
  | drwVxVyN x y n =>
    rcases s.access_cases h with ⟨_, rfl⟩ | ⟨_, _, rfl⟩
    · exact setReg_advance_reg _ _ hr
    · rfl
  | ldVxMem x =>
    rcases s.access_cases h with ⟨_, rfl⟩ | ⟨_, _, rfl⟩
    · exact (s.loadRegs_getElem x r).trans (if_neg hr)
    · rfl
  | ldBVx x | ldMemVx x => rcases s.access_cases h with ⟨_, rfl⟩ | ⟨_, _, rfl⟩ <;> rfl
  | _ => cases h; rfl

/-- Settles O51: the contrapositive of `exec_reg_of_not_mayWrite`. -/
theorem registersWrittenOnlyAsTabled : Obligations.RegistersWrittenOnlyAsTabled :=
  fun _ _ _ _ h hne => by_contra fun hr => hne (exec_reg_of_not_mayWrite hr h)

/-- `I`, the stack, its depth, the timers and `WAIT_X` change only under the instructions the rules name (R43, R47, R48,
R56): each instruction's update names its fields, and a raise names none of these. -/
theorem exec_special {i : Instr} (h : exec i s = .next t) :
    (t.i ≠ s.i → (∃ nnn, i = .ldINnn nnn) ∨ ∃ x, i = .addIVx x ∨ i = .ldFVx x) ∧
    (t.stack ≠ s.stack → ∃ nnn, i = .call nnn) ∧ (t.sp ≠ s.sp → i = .ret ∨ ∃ nnn, i = .call nnn) ∧
    (t.dt ≠ s.dt → ∃ x, i = .ldDtVx x) ∧ (t.st ≠ s.st → ∃ x, i = .ldStVx x) ∧
    (t.waitX ≠ s.waitX → ∃ x, i = .ldVxK x) := by
  cases i with
  | call nnn => rcases exec_call_cases h with rfl | ⟨_, rfl⟩ <;> simp
  | ret => rcases exec_ret_cases h with rfl | ⟨_, rfl⟩ <;> simp
  | drwVxVyN x y n | ldBVx x | ldMemVx x | ldVxMem x =>
    rcases s.access_cases h with ⟨_, rfl⟩ | ⟨_, _, rfl⟩ <;> simp [State.advance_eq]
  | _ => cases h; simp [State.advance_eq, State.skipIf_eq, State.setWithFlag_eq]

/-- Settles O54: the named elements and what belongs to the environment. -/
theorem specialStateWrittenOnlyAsNamed : Obligations.SpecialStateWrittenOnlyAsNamed := by
  intro i s t h
  obtain ⟨hi, hstack, hsp, hdt, hst, hwait⟩ := exec_special h
  exact ⟨hi, hstack, hsp, hdt, hst, hwait, exec_environment h⟩

end Sys2Proof.Machine
end

section
/-! PROOF of O36 and O52: what drawing leaves behind. -/

namespace Sys2Proof.Machine

variable {s t : State}

/-- The drawing instructions, 00E0 and DXYN (R32, R51). -/
def Draws (i : Instr) : Prop := i = .cls ∨ ∃ x y n, i = .drwVxVyN x y n

/-- A `Step` from `s` executes a drawing instruction. -/
def State.ExecutesDraw (s : State) : Prop := s.Executes .cls ∨ ∃ x y n, s.Executes (.drwVxVyN x y n)

theorem State.ExecutesDraw.running (h : s.ExecutesDraw) : s.status = .running := by
  rcases h with h | ⟨_, _, _, h⟩ <;> exact h.1

/-- The instruction at `PC` is the one a `Step` executes, so that one draws or none does. -/
theorem executesDraw_iff {i : Instr} (hi : s.Executes i) : s.ExecutesDraw ↔ Draws i := by
  constructor
  · rintro (h | ⟨x, y, n, h⟩)
    · exact .inl (executes_unique hi h)
    · exact .inr ⟨x, y, n, executes_unique hi h⟩
  · rintro (rfl | ⟨x, y, n, rfl⟩)
    · exact .inl hi
    · exact .inr ⟨x, y, n, hi⟩

/-- An instruction raises, or is a drawing one that completes and sets `DREW`, or leaves framebuffer and `DREW`. -/
theorem exec_draw_cases {i : Instr} (h : exec i s = .next t) :
    (∃ k op a, t = s.raise k op a) ∨ (Draws i ∧ t.drew = true ∧ t.status = s.status) ∨
      (¬ Draws i ∧ t.drew = s.drew ∧ t.fb = s.fb) := by
  cases i with
  | cls => cases h; exact .inr (.inl ⟨.inl rfl, rfl, rfl⟩)
  | drwVxVyN x y n =>
    rcases s.access_cases h with ⟨_, rfl⟩ | ⟨_, _, rfl⟩
    · exact .inr (.inl ⟨.inr ⟨x, y, n, rfl⟩, rfl, rfl⟩)
    · exact .inl ⟨_, _, _, rfl⟩
  | call nnn =>
    rcases exec_call_cases h with rfl | ⟨_, rfl⟩
    · exact .inl ⟨_, _, _, rfl⟩
    · exact .inr (.inr ⟨by simp [Draws], rfl, rfl⟩)
  | ret =>
    rcases exec_ret_cases h with rfl | ⟨_, rfl⟩
    · exact .inl ⟨_, _, _, rfl⟩
    · exact .inr (.inr ⟨by simp [Draws], rfl, rfl⟩)
  | ldBVx x | ldMemVx x | ldVxMem x =>
    rcases s.access_cases h with ⟨_, rfl⟩ | ⟨_, _, rfl⟩
    · exact .inr (.inr ⟨by simp [Draws], rfl, rfl⟩)
    · exact .inl ⟨_, _, _, rfl⟩
  | rndVxNn x nn => cases h; exact .inr (.inr ⟨by simp [Draws], by simp [State.advance_eq], by simp [State.advance_eq]⟩)
  | _ => cases h; exact .inr (.inr ⟨by simp [Draws], rfl, rfl⟩)

/-- A `Step` leaves `DREW` 0 and the framebuffer, and draws nothing or halts; or it completes a drawing instruction. -/
theorem stepEvent_draw_cases (h : stepEvent s = .next t) :
    (t.drew = false ∧ t.fb = s.fb ∧ (¬ s.ExecutesDraw ∨ t.status = .halted)) ∨
    (t.drew = true ∧ s.ExecutesDraw ∧ t.status = .running) := by
  rcases stepEvent_cases s with ⟨hs, he⟩ | ⟨_, _, he⟩ | ⟨_, _, hno, he⟩ | ⟨i, hi, he⟩
  · cases he.symm.trans h
    exact .inl ⟨rfl, rfl, .inl fun hd => hs hd.running⟩
  · cases he.symm.trans h
    exact .inl ⟨rfl, rfl, .inr rfl⟩
  · cases he.symm.trans h
    exact .inl ⟨rfl, rfl, .inr rfl⟩
  · rcases exec_draw_cases (he.symm.trans h) with ⟨k, op, a, rfl⟩ | ⟨hd, hdrew, hst⟩ | ⟨hd, hdrew, hfb⟩
    · exact .inl ⟨rfl, rfl, .inr rfl⟩
    · exact .inr ⟨hdrew, (executesDraw_iff hi).2 hd, hst.trans hi.1⟩
    · exact .inl ⟨hdrew, hfb, .inl (mt (executesDraw_iff hi).1 hd)⟩

/-- Settles O36: the two cases of a `Step` are the two values of `DREW`. -/
theorem drewTellsOfACompletedDraw : Obligations.DrewTellsOfACompletedDraw := by
  intro s t h
  change t.drew = true ↔ s.ExecutesDraw ∧ t.status ≠ .halted
  rcases stepEvent_draw_cases h with ⟨hdrew, -, hno | hhalt⟩ | ⟨hdrew, hd, hrun⟩
  · simp [hdrew, hno]
  · simp [hdrew, hhalt]
  · simp [hdrew, hd, hrun]

theorem keyEvent_fb (k : BitVec 4) (s : State) : (keyEvent k s).fb = s.fb := by
  by_cases hw : s.status = .waitingForKey
  · rw [keyEvent_waiting k hw]; rfl
  · rw [keyEvent_notWaiting k hw]

/-- Settles O52: of the events that touch the framebuffer, `Reset` is named and a `Step` has completed a draw. -/
theorem framebufferWrittenOnlyByDrawing : Obligations.FramebufferWrittenOnlyByDrawing := by
  intro e s t h hne
  rcases applyEvent_cases h with ⟨rfl, -⟩ | ⟨_, -, -, -, rfl⟩ | ⟨_, -, -, -, rfl⟩ | ⟨rfl, h⟩ | ⟨-, rfl⟩ | ⟨k, -, rfl⟩ |
    ⟨_, -, rfl⟩
  · exact .inl rfl
  · exact absurd rfl hne
  · exact absurd rfl hne
  · rcases stepEvent_draw_cases h with ⟨-, hfb, -⟩ | ⟨-, hd, -⟩
    · exact absurd hfb hne
    · exact .inr ⟨rfl, hd⟩
  · exact absurd rfl hne
  · exact absurd (keyEvent_fb k s) hne
  · exact absurd rfl hne

end Sys2Proof.Machine
end

section
/-! PROOF of O50: the table of the changes of `STATUS`. -/

namespace Sys2Proof.Machine

variable {s t : State}

/-- A `Step` changes `STATUS` only from `Running`: by an FX0A, or by a fatal error, which names the instruction. -/
theorem stepEvent_status (h : stepEvent s = .next t) (hne : t.status ≠ s.status) :
    s.status = .running ∧ ((t.status = .waitingForKey ∧ ∃ x, s.Executes (.ldVxK x)) ∨
      (t.status = .halted ∧ t.err.pc = s.pc ∧ t.err.kind ≠ .none)) := by
  rcases stepEvent_cases s with ⟨_, he⟩ | ⟨hs, _, he⟩ | ⟨hs, _, _, he⟩ | ⟨i, hi, he⟩
  · cases he.symm.trans h
    exact absurd rfl hne
  · cases he.symm.trans h
    exact ⟨hs, .inr ⟨rfl, rfl, by simp⟩⟩
  · cases he.symm.trans h
    exact ⟨hs, .inr ⟨rfl, rfl, by simp⟩⟩
  · rcases exec_cases (he.symm.trans h) with ⟨hst, -⟩ | ⟨x, rfl, hst, -⟩ | ⟨k, op, a, hk, -, -, rfl⟩
    · exact absurd hst hne
    · exact ⟨hi.1, .inl ⟨hst, x, hi⟩⟩
    · exact ⟨hi.1, .inr ⟨rfl, rfl, hk.ne_none⟩⟩

/-- Settles O50: event by event, the rows of R55. -/
theorem statusChangesOnlyAsTabled : Obligations.StatusChangesOnlyAsTabled := by
  intro e s t h hne
  rcases applyEvent_cases h with ⟨rfl, rfl⟩ | ⟨_, -, -, -, rfl⟩ | ⟨bytes, rfl, hb, hlen, rfl⟩ | ⟨rfl, h⟩ | ⟨-, rfl⟩ |
    ⟨k, rfl, rfl⟩ | ⟨_, -, rfl⟩
  · exact .inr (.inr (.inr (.inr ⟨rfl, rfl⟩)))
  · exact absurd rfl hne
  · exact .inr (.inr (.inr (.inl ⟨hb, fun hi => hi.running_of_bootOpen hb, rfl, bytes, rfl, hlen⟩)))
  · obtain ⟨hs, ⟨hst, hx⟩ | ⟨hst, hpc, hk⟩⟩ := stepEvent_status h hne
    · exact .inl ⟨hs, rfl, hst, hx⟩
    · exact .inr (.inr (.inl ⟨hs, rfl, hst, hpc, hk⟩))
  · exact absurd rfl hne
  · by_cases hw : s.status = .waitingForKey
    · exact .inr (.inl ⟨hw, by rw [keyEvent_waiting k hw], k, rfl⟩)
    · exact absurd (congrArg State.status (keyEvent_notWaiting k hw)) hne
  · exact absurd rfl hne

end Sys2Proof.Machine
end

section
/-! PROOF of O7, O44 and O57: the cycle, the reset values, the outputs. -/

namespace Sys2Proof.Machine

/-- Settles O7: the next event is the `Step` in both cases, and neither way of taking it changes what is fetched. -/
theorem stepRunsTheDecodedInstruction : Obligations.StepRunsTheDecodedInstruction := by
  intro s i hi
  refine ⟨fun he => ?_, fun es he => ?_⟩
  · exact (step_of_events_nil he).trans (stepEvent_exec hi)
  · exact (step_of_events_cons he).trans (stepEvent_exec (s := { s with events := es }) hi)

/-- The font's own bytes (R62, R352). -/
theorem resetByte_font (c : Config) (k : Fin 80) : resetByte c (c.fontBase.toNat + k.val) = c.fontData[k] := by
  simp [resetByte]

/-- Outside the font memory is 0 after reset (R62). -/
theorem resetByte_outside (c : Config) {a : Nat} (h : a < c.fontBase.toNat ∨ c.fontBase.toNat + 80 ≤ a) :
    resetByte c a = 0 := dif_neg (by omega)

/-- Settles O44: the state is `afterReset`, whose fields are the reset values as written. -/
theorem resetSetsEveryElement : Obligations.ResetSetsEveryElement := by
  intro s
  refine ⟨s.afterReset, rfl, fun r => ?_, rfl, rfl, rfl, fun k => ?_, rfl, rfl, Framebuffer.pixel_blank, rfl, rfl, rfl, rfl,
    rfl, rfl, rfl, resetByte_font s.config, fun a => resetByte_outside s.config, rfl, rfl⟩
  · exact Vector.getElem_replicate r.isLt
  · exact Vector.getElem_replicate k.isLt

/-- `SOUND_ACTIVE` as R49 words it. -/
theorem State.soundActive_eq (s : State) : s.soundActive = decide (0 < s.st.toNat) := by
  have hne : s.st ≠ 0 ↔ 0 < s.st.toNat := by
    rw [Nat.pos_iff_ne_zero, ne_eq, ne_eq, ← BitVec.toNat_inj]; rfl
  simp [State.soundActive, ← hne, bne, beq_eq_decide]

/-- Settles O57: all but `SOUND_ACTIVE` is as the tables are written. -/
theorem outputsAreAsTabled : Obligations.OutputsAreAsTabled :=
  ⟨rfl, rfl, rfl, rfl, rfl, rfl, rfl, rfl, rfl, fun s => ⟨s.soundActive_eq, rfl, rfl, rfl, fun _ _ => rfl⟩⟩

end Sys2Proof.Machine
end

section
/-! PROOF of O6, O8 and O30: the address check, the fetch that uses it, and the error of a fetch that fails it. -/

namespace Sys2Proof.Machine

variable {s : State}

/-- The check passes exactly in range (R73): the last address decides. -/
theorem firstOutOfRange_eq_none_iff_forall {a n : Nat} :
    firstOutOfRange a n = none ↔ ∀ k, k < n → a + k ≤ 0xFFF := by
  rw [firstOutOfRange_eq_none, memSize]
  constructor
  · intro h k hk
    omega
  · intro h
    by_contra hbad
    have hlast := h (n - 1) (by omega)
    omega

/-- The check reports the lowest address above 0xFFF (R74): `a` itself where it is out of range, else 0x1000, which the
run then reaches. -/
theorem firstOutOfRange_eq_some_iff_lowest {a n b : Nat} :
    firstOutOfRange a n = some b ↔
      (∃ k, k < n ∧ b = a + k) ∧ 0xFFF < b ∧ ∀ k, k < n → 0xFFF < a + k → b ≤ a + k := by
  rw [firstOutOfRange_eq_some, memSize]
  constructor
  · rintro ⟨hn, hbad, rfl⟩
    refine ⟨⟨0x1000 - a, ?_, ?_⟩, ?_, fun k _ _ => ?_⟩ <;> omega
  · rintro ⟨⟨k, hk, rfl⟩, hbad, hlow⟩
    have hfirst := hlow (0x1000 - a) (by omega) (by omega)
    omega

/-- Settles O30: the two answers of the check. -/
theorem addressCheckReportsTheLowest : Obligations.AddressCheckReportsTheLowest :=
  fun _ _ => ⟨firstOutOfRange_eq_none_iff_forall, fun _ => firstOutOfRange_eq_some_iff_lowest⟩

/-- A fetch succeeds exactly up to 0xFFE (R76). -/
theorem State.exists_fetch_ok_iff : (∃ op, s.fetch = .ok op) ↔ s.pc.toNat ≤ 0xFFE := by
  constructor
  · rintro ⟨op, hop⟩
    by_contra hpc
    cases hop.symm.trans (s.fetch_bad (by omega))
  · exact fun hpc => ⟨_, s.fetch_ok hpc⟩

/-- Settles O6: the address a failing fetch reports is `PC` above 0xFFF and 0x1000 at 0xFFF. -/
theorem fetchIsBigEndianAndChecked : Obligations.FetchIsBigEndianAndChecked := by
  refine fun s => ⟨fun hpc => ?_, fun hle hlt => ?_, fun hpc => s.fetch_ok (by omega), State.exists_fetch_ok_iff⟩
  · rw [s.fetch_bad (by omega), memSize, max_eq_left (by omega)]
  · rw [s.fetch_bad (by omega), memSize, max_eq_right (by omega), show s.pc.toNat = 0xFFF by omega]

/-- Settles O8: the raise at `beginStep` is one at the state with the boot window closed, since a raise writes `DREW`. -/
theorem outOfRangeFetchHalts : Obligations.OutOfRangeFetchHalts := by
  intro s hs hpc
  have hword := s.pc.isLt
  rw [stepEvent_running hs, cycle_outOfRange (s := s.beginStep) hpc]
  exact halts_raise { s with bootOpen := false } .outOfBounds 0 (show max s.pc.toNat 0x1000 < 2 ^ 17 by omega)

end Sys2Proof.Machine
end

section
/-! PROOF of O31 and O53: what the instructions do to memory, and a store into the next instruction. -/

namespace Sys2Proof.Machine

variable {s t : State}

/-- An instruction keeps memory, or is an FX33 or FX55 that has stored its bytes at `I` (R79). -/
theorem exec_mem_cases {i : Instr} (h : exec i s = .next t) :
    t.mem = s.mem ∨
    (∃ x, i = .ldBVx x ∧ t = (s.storeBytes s.i.toNat (bcdDigits (s.reg x))).advance) ∨
    ∃ x, i = .ldMemVx x ∧ t = (s.storeBytes s.i.toNat (s.regsUpTo x)).advance := by
  cases i with
  | ldBVx x =>
    rcases s.access_cases h with ⟨_, rfl⟩ | ⟨_, _, rfl⟩
    · exact .inr (.inl ⟨x, rfl, rfl⟩)
    · exact .inl rfl
  | ldMemVx x =>
    rcases s.access_cases h with ⟨_, rfl⟩ | ⟨_, _, rfl⟩
    · exact .inr (.inr ⟨x, rfl, rfl⟩)
    · exact .inl rfl
  | drwVxVyN x y n | ldVxMem x => rcases s.access_cases h with ⟨_, rfl⟩ | ⟨_, _, rfl⟩ <;> exact .inl rfl
  | call nnn => rcases exec_call_cases h with rfl | ⟨_, rfl⟩ <;> exact .inl rfl
  | ret => rcases exec_ret_cases h with rfl | ⟨_, rfl⟩ <;> exact .inl rfl
  | rndVxNn x nn => cases h; exact .inl s.dropRnd_mem
  | _ => cases h; exact .inl rfl

/-- A byte that the update of a store instruction changes is one of those stored. -/
theorem State.stored_of_readByte_ne {a q : Nat} {bs : List Byte}
    (h : (s.storeBytes a bs).advance.readByte q ≠ s.readByte q) : a ≤ q ∧ q < a + bs.length :=
  by_contra fun hq => h (s.readByte_storeBytes_other bs hq)

/-- Settles O53: a byte can change only under the two stores, and there only among the stored ones. -/
theorem memoryWrittenOnlyByStores : Obligations.MemoryWrittenOnlyByStores := by
  intro i s t a h hne
  rcases exec_mem_cases h with hmem | ⟨x, rfl, rfl⟩ | ⟨x, rfl, rfl⟩
  · obtain ⟨-, hconfig, -, -⟩ := exec_environment h
    exact absurd (State.readByte_congr hmem hconfig a) hne
  · obtain ⟨hlo, hhi⟩ := State.stored_of_readByte_ne hne
    have hlen : (bcdDigits (s.reg x)).length = 3 := rfl
    exact ⟨x, .inl ⟨rfl, hlo, by omega⟩⟩
  · obtain ⟨hlo, hhi⟩ := State.stored_of_readByte_ne hne
    rw [s.regsUpTo_length] at hhi
    exact ⟨x, .inr ⟨rfl, hlo, by omega⟩⟩

/-- An FX55 whose bytes are in range stores `V[0]` .. `V[X]` and advances (R204). -/
theorem exec_ldMemVx_ok {x : Reg} (h : s.i.toNat + x.val ≤ 0xFFF) :
    exec (.ldMemVx x) s = .next (s.storeBytes s.i.toNat (s.regsUpTo x)).advance :=
  s.access_ok (.inr (by simp only [memSize]; omega)) _

/-- After that store `V[k]` stands at `I + k` (R204). -/
theorem State.readByte_storeBytes_regsUpTo {x k : Reg} (hm : s.memOk) (h : s.i.toNat + x.val ≤ 0xFFF) (hk : k ≤ x) :
    (s.storeBytes s.i.toNat (s.regsUpTo x)).readByte (s.i.toNat + k.val) = s.reg k := by
  have hkx : k.val ≤ x.val := hk
  have hlen := s.regsUpTo_length x
  rw [s.readByte_storeBytes hm _ (by simp only [memSize]; omega), if_pos (by omega), Nat.add_sub_cancel_left,
    s.regsUpTo_getD hk]

/-- Settles O31: the store begins at the new `PC`, so the fetch there reads its first two bytes. -/
theorem storeIntoTheNextInstructionIsFetched : Obligations.StoreIntoTheNextInstructionIsFetched := by
  intro x s hm hx hi hrange
  have hpc : (s.pc + 2).toNat = s.pc.toNat + 2 := BitVec.toNat_add_of_lt (show s.pc.toNat + 2 < 2 ^ 16 by omega)
  have hin : s.i.toNat + x.val ≤ 0xFFF := by rw [hi, hpc]; exact hrange
  refine ⟨_, exec_ldMemVx_ok hin, rfl, ?_⟩
  have hread (k : Reg) (hk : k ≤ x) :
      (s.storeBytes s.i.toNat (s.regsUpTo x)).readByte ((s.pc + 2).toNat + k.val) = s.reg k := by
    rw [← hi]; exact State.readByte_storeBytes_regsUpTo hm hin hk
  rw [State.fetch_ok _ (show (s.pc + 2).toNat ≤ 0xFFE by omega)]
  exact congrArg Except.ok (congrArg₂ wordOfBytes (hread 0 (Fin.zero_le x)) (hread 1 hx))

end Sys2Proof.Machine
end

section
/-! PROOF of O1 to O5: the encoder is the inverse of the decoder (R104, R110), and the illegal words (R106). -/

namespace Sys2Proof

variable {w : Word} {i : Instr}

/-! ### The fields as numbers -/

theorem opClass_lt (w : Word) : opClass w < 16 := Nat.div_lt_of_lt_mul w.isLt

theorem opN_lt (w : Word) : opN w < 16 := Nat.mod_lt _ (by decide)

theorem opNNN_toNat (w : Word) : (opNNN w).toNat = w.toNat % 0x1000 := BitVec.toNat_setWidth ..

theorem opNN_toNat (w : Word) : (opNN w).toNat = w.toNat % 0x100 := BitVec.toNat_setWidth ..

/-- A word of class 0 is its `NNN` field. -/
theorem eq_ofNat_of_opClass_zero {n : Nat} (hc : opClass w = 0) (hn : (opNNN w).toNat = n) :
    BitVec.ofNat 16 n = w := by
  have hw := fmtNNN_fields w hc
  rwa [fmtNNN, Nat.zero_mul, Nat.zero_add, hn] at hw

/-! ### From the instruction to the word and back -/

/-- The decoder reads from each format of R102 the fields the encoder put there. -/
theorem decodeWord_encode (h : i.wellFormed = true) : decodeWord (encode i) = .ok i := by
  cases i with
  | cls | ret => rfl
  | jp nnn | call nnn | ldINnn nnn | jpV0Nnn nnn => simp [encode, decodeWord, opClass_fmtNNN, opNNN_fmtNNN]
  | seVxNn x nn | sneVxNn x nn | ldVxNn x nn | addVxNn x nn | rndVxNn x nn =>
    simp [encode, decodeWord, opClass_fmtXNN, opX_fmtXNN, opNN_fmtXNN]
  | seVxVy x y | ldVxVy x y | orVxVy x y | andVxVy x y | xorVxVy x y | addVxVy x y | subVxVy x y | shrVxVy x y
  | subnVxVy x y | shlVxVy x y | sneVxVy x y =>
    simp [encode, decodeWord, opClass_fmtXYN, opX_fmtXYN, opY_fmtXYN, opN_fmtXYN]
  | drwVxVyN x y n =>
    have hn : n % 16 = n := Nat.mod_eq_of_lt (Nat.lt_succ_of_le (of_decide_eq_true h))
    simp [encode, decodeWord, opClass_fmtXYN, opX_fmtXYN, opY_fmtXYN, opN_fmtXYN, hn]
  | skpVx x | sknpVx x | ldVxDt x | ldVxK x | ldDtVx x | ldStVx x | addIVx x | ldFVx x | ldBVx x | ldMemVx x
  | ldVxMem x =>
    simp [encode, decodeWord, fmtXF_eq_fmtXNN, opClass_fmtXNN, opX_fmtXNN, opNN_fmtXNN]

theorem decode_encodeBytes (h : i.wellFormed = true) (rest : List Byte) :
    decode (encodeBytes i ++ rest) = .ok (i, rest) := by
  rw [encodeBytes, decode_bytesOfWord, decodeWord_encode h]; rfl

theorem decodeTableWord_encode (h : i.wellFormed = true) : decodeTableWord 16 (encode i).toNat = some i := by
  have hw : BitVec.ofNat 16 ((encode i).toNat % 2 ^ 16) = encode i := by
    rw [Nat.mod_eq_of_lt (encode i).isLt, BitVec.ofNat_toNat, BitVec.setWidth_eq]
  have hd : decode (bytesOfWord (encode i)) = .ok (i, []) := by
    rw [← List.append_nil (bytesOfWord _)]; exact decode_encodeBytes h []
  simp only [decodeTableWord, hw, hd]

/-- Settles O3: the word, its bytes and the table's number are three readings of `decodeWord_encode`. -/
theorem decodeOfEncodeIsTheInstruction : Obligations.DecodeOfEncodeIsTheInstruction :=
  fun _ h => ⟨decodeWord_encode h, decode_encodeBytes h, decodeTableWord_encode h⟩

/-! ### From the word to the instruction and back -/

/-- The six rows of the table of illegal words (R106), in the fields of R101. -/
def IllegalWord (w : Word) : Prop :=
  (opClass w = 0x0 ∧ (opNNN w).toNat ∉ [0x0E0, 0x0EE]) ∨
  (opClass w = 0x5 ∧ opN w ≠ 0) ∨
  (opClass w = 0x8 ∧ opN w ∈ [0x8, 0x9, 0xA, 0xB, 0xC, 0xD, 0xF]) ∨
  (opClass w = 0x9 ∧ opN w ≠ 0) ∨
  (opClass w = 0xE ∧ (opNN w).toNat ∉ [0x9E, 0xA1]) ∨
  (opClass w = 0xF ∧ (opNN w).toNat ∉ [0x07, 0x0A, 0x15, 0x18, 0x1E, 0x29, 0x33, 0x55, 0x65])

/-- What decoding `w` can answer: an instruction that `w` encodes, or for an illegal word the error that names it. -/
inductive DecodeAnswer (w : Word) : Except DecodeError Instr → Prop
  | instr {i : Instr} (hwf : i.wellFormed = true) (hw : encode i = w) : DecodeAnswer w (.ok i)
  | illegal (h : IllegalWord w) : DecodeAnswer w (.error (.unknownInstruction w))

/-- One walk through the opcode map: in the case `h_k` of the outer split the class is `k - 1`, and the inner splits are
on the sub-function. Each row rebuilds the word from its fields; what falls through all rows of a class is illegal. -/
theorem decodeWord_answer (w : Word) : DecodeAnswer w (decodeWord w) := by
  have hn := opN_lt w
  unfold decodeWord
  split
  case h_1 hc =>
    split
    case h_1 hf | h_2 hf => exact .instr rfl (eq_ofNat_of_opClass_zero hc hf)
    case h_3 => exact .illegal (by grind [IllegalWord])
  case h_2 hc | h_3 hc | h_11 hc | h_12 hc => exact .instr rfl (fmtNNN_fields w hc)
  case h_4 hc | h_5 hc | h_7 hc | h_8 hc | h_13 hc => exact .instr rfl (fmtXNN_fields w hc)
  case h_6 hc | h_10 hc =>
    split
    case h_1 hf => exact .instr rfl (fmtXYN_fields w hc hf)
    case h_2 => exact .illegal (by grind [IllegalWord])
  case h_9 hc =>
    split
    case h_10 => exact .illegal (by grind [IllegalWord])
    all_goals next hf => exact .instr rfl (fmtXYN_fields w hc hf)
  case h_14 hc => exact .instr (decide_eq_true (Nat.le_of_lt_succ hn)) (fmtXYN_fields w hc rfl)
  case h_15 hc =>
    split
    case h_3 => exact .illegal (by grind [IllegalWord])
    all_goals next hf => exact .instr rfl (fmtXF_fields w hc hf)
  case h_16 hc =>
    split
    case h_10 => exact .illegal (by grind [IllegalWord])
    all_goals next hf => exact .instr rfl (fmtXF_fields w hc hf)
  case h_17 => exact absurd (opClass_lt w) (by grind)

/-- Decoder and encoder are inverse between the words of R104 and the well-formed instructions. -/
theorem decodeWord_eq_ok_iff : decodeWord w = .ok i ↔ i.wellFormed = true ∧ encode i = w := by
  constructor
  · intro h
    have ha := decodeWord_answer w
    rw [h] at ha
    cases ha with
    | instr hwf hw => exact ⟨hwf, hw⟩
  · rintro ⟨hwf, rfl⟩
    exact decodeWord_encode hwf

/-- Settles O4: the forward half of `decodeWord_eq_ok_iff`. -/
theorem encodeOfDecodeIsTheWord : Obligations.EncodeOfDecodeIsTheWord :=
  fun _ _ => decodeWord_eq_ok_iff.mp

/-! ### The rows of the map and the illegal words -/

/-- Settles O2: each layout of R102 is the encoder's format, so each row follows from `decodeWord_eq_ok_iff`. -/
theorem everyRowOfTheMapDecodes : Obligations.EveryRowOfTheMapDecodes := by
  refine ⟨rfl, rfl, fun nnn => ?_, fun x nn => ?_, fun x y => ?_, fun x y n => ?_, fun x => ?_⟩
  · simp [decodeWord_eq_ok_iff, Instr.wellFormed, encode, layoutNNN_eq]
  · simp [decodeWord_eq_ok_iff, Instr.wellFormed, encode, layoutXNN_eq]
  · simp [decodeWord_eq_ok_iff, Instr.wellFormed, encode, layoutXYN_eq]
  · rw [← encode_drwVxVyN]
    exact decodeWord_encode (decide_eq_true (Nat.le_of_lt_succ n.isLt))
  · simp [decodeWord_eq_ok_iff, Instr.wellFormed, encode, layoutXNN_eq, fmtXF_eq_fmtXNN]

theorem decodeWord_of_illegalWord (h : IllegalWord w) : decodeWord w = .error (.unknownInstruction w) := by
  obtain ⟨hc, hf⟩ | ⟨hc, hf⟩ | ⟨hc, hf⟩ | ⟨hc, hf⟩ | ⟨hc, hf⟩ | ⟨hc, hf⟩ := h
  case inr.inr.inl => -- class 8, whose row lists the sub-functions
    simp only [List.mem_cons, List.not_mem_nil, or_false] at hf
    rcases hf with hf | hf | hf | hf | hf | hf | hf <;> simp [decodeWord, hc, hf]
  all_goals simp_all [decodeWord]

theorem decodeWord_eq_unknown_iff : decodeWord w = .error (.unknownInstruction w) ↔ IllegalWord w := by
  refine ⟨fun h => ?_, decodeWord_of_illegalWord⟩
  have ha := decodeWord_answer w
  rw [h] at ha
  cases ha with
  | illegal hw => exact hw

theorem decodeWord_total (w : Word) : decodeWord w = .error (.unknownInstruction w) ∨ ∃ i, decodeWord w = .ok i := by
  have ha := decodeWord_answer w
  generalize decodeWord w = r at ha ⊢
  cases ha with
  | instr => exact .inr ⟨_, rfl⟩
  | illegal => exact .inl rfl

/-- Settles O5: the table's numbers are the fields of `IllegalWord`. -/
theorem illegalWordsExactly : Obligations.IllegalWordsExactly := by
  intro w
  refine ⟨decodeWord_total w, decodeWord_eq_unknown_iff.trans ?_⟩
  rw [← opNNN_toNat, ← opNN_toNat]
  exact Iff.rfl

/-- Settles O1: each of the twelve words is decoded by evaluation. -/
theorem specWordsDecode : Obligations.SpecWordsDecode := by
  unfold Obligations.SpecWordsDecode; decide

end Sys2Proof
end

section
/-! PROOF of O10: a `Step` of a core that is not `Running`. -/

namespace Sys2Proof.Machine

variable {s : State}

/-- With the boot window closed, beginning a `Step` clears `DREW` and nothing else (R131). -/
theorem State.beginStep_of_bootOpen_false (h : s.bootOpen = false) : s.beginStep = { s with drew := false } := by
  simp only [State.beginStep, h]

/-- Settles O10: outside `Running` the boot window is closed. -/
theorem stepDoesNothingUnlessRunning : Obligations.StepDoesNothingUnlessRunning := by
  intro s hi hs
  have hnr : s.status ≠ .running := by rcases hs with hs | hs <;> simp [hs]
  have hb : s.bootOpen = false := Bool.eq_false_iff.mpr (mt hi.running_of_bootOpen hnr)
  rw [stepEvent_notRunning hnr, State.beginStep_of_bootOpen_false hb]

end Sys2Proof.Machine
end

section
/-! PROOF of O14, O15, O16, O18 and O19: jumps, call and return, skips. The words are those of O2's rows. -/

namespace Sys2Proof.Machine

/-! ### Jumps -/

theorem exec_jp (nnn : BitVec 12) (s : State) : exec (.jp nnn) s = .next (s.jump (zext16 nnn)) := rfl

theorem exec_jpV0Nnn (nnn : BitVec 12) (s : State) :
    exec (.jpV0Nnn nnn) s = .next (s.jump (zext16 nnn + (s.reg 0).setWidth 16)) := rfl

/-- The target of BNNN is the exact sum: 12 bits and 8 bits do not wrap in 16 (R136). -/
theorem zext16_add_byte_toNat (nnn : BitVec 12) (b : Byte) :
    (zext16 nnn + b.setWidth 16).toNat = nnn.toNat + b.toNat := by
  have hnnn := nnn.isLt
  have hb := b.isLt
  rw [BitVec.toNat_add, zext16_toNat, BitVec.toNat_setWidth]
  omega

/-- Settles O14: both are a `jump`. -/
theorem jumpsSetPc : Obligations.JumpsSetPc := by
  intro nnn s
  obtain ⟨-, -, hNNN, -⟩ := everyRowOfTheMapDecodes
  obtain ⟨hjp, -, -, hjpV0⟩ := hNNN nnn
  exact ⟨hjp, hjpV0, ⟨_, exec_jp nnn s, zext16_toNat nnn, rfl⟩,
    ⟨_, exec_jpV0Nnn nnn s, zext16_add_byte_toNat nnn (s.reg 0), rfl⟩⟩

/-! ### Call and return -/

/-- Settles O15, on what a call answers with room on the stack and without. -/
theorem callPushesTheNextAddress : Obligations.CallPushesTheNextAddress := by
  intro nnn s
  obtain ⟨-, -, hNNN, -⟩ := everyRowOfTheMapDecodes
  obtain ⟨-, hcall, -⟩ := hNNN nnn
  refine ⟨hcall, fun hroom => ?_, fun hfull => ?_⟩
  · exact ⟨_, exec_call_ok nnn hroom, Vector.getElem_set_self _,
      fun k hk => Vector.getElem_set_ne hroom k.isLt hk.symm, rfl, zext16_toNat nnn, rfl⟩
  · rw [exec_call_full nnn hfull, ← encode_call]
    exact halts_raise s .stackOverflow _ (by decide)

/-- Settles O16, on what a return answers with an entry on the stack and without. -/
theorem returnPopsTheTop : Obligations.ReturnPopsTheTop := by
  obtain ⟨-, hret, -⟩ := everyRowOfTheMapDecodes
  refine ⟨hret, fun s => ⟨fun hentry => ?_, fun hempty => ?_⟩⟩
  · exact ⟨_, exec_ret_ok hentry, rfl, Nat.sub_add_cancel hentry, rfl⟩
  · rw [exec_ret_empty hempty]
    exact halts_raise s .stackUnderflow _ (by decide)

/-! ### Skips -/

theorem exec_seVxNn (x : Reg) (nn : Byte) (s : State) :
    exec (.seVxNn x nn) s = .next (s.skipIf (s.reg x == nn)) := rfl

theorem exec_sneVxNn (x : Reg) (nn : Byte) (s : State) :
    exec (.sneVxNn x nn) s = .next (s.skipIf (s.reg x != nn)) := rfl

theorem exec_seVxVy (x y : Reg) (s : State) :
    exec (.seVxVy x y) s = .next (s.skipIf (s.reg x == s.reg y)) := rfl

theorem exec_sneVxVy (x y : Reg) (s : State) :
    exec (.sneVxVy x y) s = .next (s.skipIf (s.reg x != s.reg y)) := rfl

/-- A skip on an equality test, as R138 and R140 word it. -/
theorem State.skipIf_beq (s : State) (a b : Byte) :
    s.skipIf (a == b) = { s with pc := if a = b then s.pc + 4 else s.pc + 2 } := by
  simp only [State.skipIf, State.jump, beq_iff_eq]

/-- A skip on an inequality test, as R139 and R141 word it. -/
theorem State.skipIf_bne (s : State) (a b : Byte) :
    s.skipIf (a != b) = { s with pc := if a ≠ b then s.pc + 4 else s.pc + 2 } := by
  simp only [State.skipIf, State.jump, bne_iff_ne]

/-- Settles O18: 3XNN skips on `==`, 4XNN on `!=`. -/
theorem skipsOnImmediate : Obligations.SkipsOnImmediate := by
  intro x nn s
  obtain ⟨-, -, -, hXNN, -⟩ := everyRowOfTheMapDecodes
  obtain ⟨hse, hsne, -⟩ := hXNN x nn
  refine ⟨hse, hsne, ?_, ?_⟩
  · rw [exec_seVxNn, State.skipIf_beq]
  · rw [exec_sneVxNn, State.skipIf_bne]

theorem opClass_layoutXYN (c : BitVec 4) (x y : Reg) (n : BitVec 4) : opClass (layoutXYN c x y n) = c.toNat := by
  rw [layoutXYN_eq, opClass_fmtXYN c.isLt]

theorem opN_layoutXYN (c : BitVec 4) (x y : Reg) (n : BitVec 4) : opN (layoutXYN c x y n) = n.toNat := by
  rw [layoutXYN_eq, opN_fmtXYN c.isLt, Nat.mod_eq_of_lt n.isLt]

theorem decodeWord_ne_ok_of_illegalWord {w : Word} (h : IllegalWord w) (i : Instr) : decodeWord w ≠ .ok i := by
  simp [decodeWord_of_illegalWord h]

/-- In the classes 5 and 9 only the low nibble 0 is an instruction (R106). -/
theorem illegalWord_layoutXYN {c : BitVec 4} (hc : c = 0x5 ∨ c = 0x9) (x y : Reg) {n : BitVec 4} (hn : n ≠ 0) :
    IllegalWord (layoutXYN c x y n) := by
  have hf : opN (layoutXYN c x y n) ≠ 0 := by
    rw [opN_layoutXYN]
    exact fun h0 => hn (BitVec.eq_of_toNat_eq h0)
  have hclass := opClass_layoutXYN c x y n
  rcases hc with rfl | rfl
  · exact .inr (.inl ⟨hclass, hf⟩)
  · exact .inr (.inr (.inr (.inl ⟨hclass, hf⟩)))

/-- Settles O19: 5XY0 skips on `==`, 9XY0 on `!=`, and the other low nibbles are rows of R106. -/
theorem skipsOnRegisters : Obligations.SkipsOnRegisters := by
  intro x y s
  obtain ⟨-, -, -, -, hXYN, -⟩ := everyRowOfTheMapDecodes
  obtain ⟨hse, -, -, -, -, -, -, -, -, -, hsne⟩ := hXYN x y
  refine ⟨hse, hsne, fun n hn i => ⟨?_, ?_⟩, ?_, ?_⟩
  · exact decodeWord_ne_ok_of_illegalWord (illegalWord_layoutXYN (.inl rfl) x y hn) i
  · exact decodeWord_ne_ok_of_illegalWord (illegalWord_layoutXYN (.inr rfl) x y hn) i
  · rw [exec_seVxVy, State.skipIf_beq]
  · rw [exec_sneVxVy, State.skipIf_bne]

end Sys2Proof.Machine
end

section
/-! PROOF of O20 to O25: loads, the ALU and the random draw. The words are those of O2's rows. -/

namespace Sys2Proof.Machine

/-! ### The two updates the register writers end in -/

@[simp] theorem State.setReg_advance_reg_self (s : State) (x : Reg) (b : Byte) : (s.setReg x b).advance.reg x = b := by
  simp [State.advance_eq]

/-- An 8-bit result in `V[x]` and a flag in VF, in numbers; what the statements on the flag writers say (R14, D4). -/
theorem exists_next_setWithFlag {o : Result} {s : State} {x : Reg} {r : Byte} {f : Bool} {n m : Nat}
    (ho : o = .next (s.setWithFlag x r f).advance) (hr : r.toNat = n) (hf : (flag f).toNat = m) :
    ∃ t, o = .next t ∧ (x ≠ VF → (t.reg x).toNat = n) ∧ (t.reg VF).toNat = m ∧ OnlyRegs [x, VF] s t := by
  refine ⟨_, ho, fun hx => ?_, ?_, onlyRegs_setWithFlag s x r f⟩
  · rw [State.advance_eq, State.jump_reg, State.setWithFlag_dest s hx, hr]
  · rw [State.advance_eq, State.jump_reg, State.setWithFlag_vf, hf]

/-! ### Results and flags as numbers (R160) -/

theorem byte_sub_toNat (a b : Byte) : (a - b).toNat = (a.toNat + 256 - b.toNat) % 256 := by
  have hb := b.isLt
  rw [BitVec.toNat_sub]
  omega

theorem byte_shiftRight_one_toNat (a : Byte) : (a >>> 1).toNat = a.toNat / 2 := by
  rw [BitVec.toNat_ushiftRight, Nat.shiftRight_eq_div_pow, pow_one]

theorem byte_shiftLeft_one_toNat (a : Byte) : (a <<< 1).toNat = a.toNat * 2 % 256 := by
  rw [BitVec.toNat_shiftLeft, Nat.shiftLeft_eq, pow_one]

theorem flag_carry_toNat (a b : Byte) : (flag (carry a b)).toNat = if a.toNat + b.toNat > 255 then 1 else 0 := by
  simp only [flag_toNat, carry, decide_eq_true_eq]

theorem flag_noBorrow_toNat (a b : Byte) : (flag (noBorrow a b)).toNat = if a.toNat ≥ b.toNat then 1 else 0 := by
  simp only [flag_toNat, noBorrow, decide_eq_true_eq]

/-- A flag made of bit `k` is that bit as a number. -/
theorem flag_getLsbD_toNat (a : Byte) (k : Nat) : (flag (a.getLsbD k)).toNat = a.toNat / 2 ^ k % 2 := by
  rw [flag_toNat, ← Nat.toNat_testBit, Bool.toNat, Bool.cond_eq_ite, BitVec.getLsbD]

theorem flag_shiftedOutRight_toNat (a : Byte) : (flag (shiftedOutRight a)).toNat = a.toNat % 2 := by
  rw [shiftedOutRight, flag_getLsbD_toNat, pow_zero, Nat.div_one]

/-- The top bit of a byte needs no reduction modulo 2. -/
theorem flag_shiftedOutLeft_toNat (a : Byte) : (flag (shiftedOutLeft a)).toNat = a.toNat / 128 := by
  have ha := a.isLt
  rw [shiftedOutLeft, flag_getLsbD_toNat]
  omega

/-! ### Loads, immediate addition and logic: no flag -/

theorem exec_ldVxNn (x : Reg) (nn : Byte) (s : State) : exec (.ldVxNn x nn) s = .next (s.setReg x nn).advance := rfl

theorem exec_addVxNn (x : Reg) (nn : Byte) (s : State) :
    exec (.addVxNn x nn) s = .next (s.setReg x (s.reg x + nn)).advance := rfl

theorem exec_ldVxVy (x y : Reg) (s : State) : exec (.ldVxVy x y) s = .next (s.setReg x (s.reg y)).advance := rfl

theorem exec_orVxVy (x y : Reg) (s : State) :
    exec (.orVxVy x y) s = .next (s.setReg x (s.reg x ||| s.reg y)).advance := rfl

theorem exec_andVxVy (x y : Reg) (s : State) :
    exec (.andVxVy x y) s = .next (s.setReg x (s.reg x &&& s.reg y)).advance := rfl

theorem exec_xorVxVy (x y : Reg) (s : State) :
    exec (.xorVxVy x y) s = .next (s.setReg x (s.reg x ^^^ s.reg y)).advance := rfl

/-- Settles O20: both end in `setReg`, and byte addition is addition modulo 256. -/
theorem loadAndAddImmediate : Obligations.LoadAndAddImmediate := by
  intro x nn s
  obtain ⟨-, -, -, hXNN, -⟩ := everyRowOfTheMapDecodes
  obtain ⟨-, -, hld, hadd, -⟩ := hXNN x nn
  refine ⟨hld, hadd, ⟨_, exec_ldVxNn x nn s, ?_, onlyRegs_setReg s x _⟩,
    ⟨_, exec_addVxNn x nn s, ?_, onlyRegs_setReg s x _⟩⟩
  · rw [State.setReg_advance_reg_self]
  · rw [State.setReg_advance_reg_self, BitVec.toNat_add]

/-- Settles O21: all four end in `setReg`, and the bits of the result are those of the operands. -/
theorem copyAndLogic : Obligations.CopyAndLogic := by
  intro x y s
  obtain ⟨-, -, -, -, hXYN, -⟩ := everyRowOfTheMapDecodes
  obtain ⟨-, hld, hor, hand, hxor, -⟩ := hXYN x y
  refine ⟨hld, hor, hand, hxor, ⟨_, exec_ldVxVy x y s, ?_, onlyRegs_setReg s x _⟩,
    ⟨_, exec_orVxVy x y s, fun k => ?_, onlyRegs_setReg s x _⟩,
    ⟨_, exec_andVxVy x y s, fun k => ?_, onlyRegs_setReg s x _⟩,
    ⟨_, exec_xorVxVy x y s, fun k => ?_, onlyRegs_setReg s x _⟩⟩
  · rw [State.setReg_advance_reg_self]
  · rw [State.setReg_advance_reg_self, BitVec.getLsbD_or]
  · rw [State.setReg_advance_reg_self, BitVec.getLsbD_and]
  · rw [State.setReg_advance_reg_self, BitVec.getLsbD_xor]

/-! ### Arithmetic and shifts: a flag in VF -/

theorem exec_addVxVy (x y : Reg) (s : State) :
    exec (.addVxVy x y) s = .next (s.setWithFlag x (s.reg x + s.reg y) (carry (s.reg x) (s.reg y))).advance := rfl

theorem exec_subVxVy (x y : Reg) (s : State) :
    exec (.subVxVy x y) s = .next (s.setWithFlag x (s.reg x - s.reg y) (noBorrow (s.reg x) (s.reg y))).advance := rfl

theorem exec_subnVxVy (x y : Reg) (s : State) :
    exec (.subnVxVy x y) s = .next (s.setWithFlag x (s.reg y - s.reg x) (noBorrow (s.reg y) (s.reg x))).advance := rfl

theorem exec_shrVxVy (x y : Reg) (s : State) :
    exec (.shrVxVy x y) s = .next (s.setWithFlag x (s.reg x >>> 1) (shiftedOutRight (s.reg x))).advance := rfl

theorem exec_shlVxVy (x y : Reg) (s : State) :
    exec (.shlVxVy x y) s = .next (s.setWithFlag x (s.reg x <<< 1) (shiftedOutLeft (s.reg x))).advance := rfl

/-- Settles O22: the sum with the carry as its flag. -/
theorem addSetsCarry : Obligations.AddSetsCarry := by
  intro x y s
  obtain ⟨-, -, -, -, hXYN, -⟩ := everyRowOfTheMapDecodes
  obtain ⟨-, -, -, -, -, hadd, -⟩ := hXYN x y
  exact ⟨hadd, exists_next_setWithFlag (exec_addVxVy x y s) (BitVec.toNat_add ..) (flag_carry_toNat ..)⟩

/-- Settles O23: the two differences, each with its no-borrow as its flag. -/
theorem subtractsSetNotBorrow : Obligations.SubtractsSetNotBorrow := by
  intro x y s
  obtain ⟨-, -, -, -, hXYN, -⟩ := everyRowOfTheMapDecodes
  obtain ⟨-, -, -, -, -, -, hsub, -, hsubn, -⟩ := hXYN x y
  exact ⟨hsub, hsubn,
    exists_next_setWithFlag (exec_subVxVy x y s) (byte_sub_toNat ..) (flag_noBorrow_toNat ..),
    exists_next_setWithFlag (exec_subnVxVy x y s) (byte_sub_toNat ..) (flag_noBorrow_toNat ..)⟩

/-- Settles O24: the two shifts of `V[X]`, each with the bit it moves out as its flag. -/
theorem shiftsSetTheBitOut : Obligations.ShiftsSetTheBitOut := by
  intro x y s
  obtain ⟨-, -, -, -, hXYN, -⟩ := everyRowOfTheMapDecodes
  obtain ⟨-, -, -, -, -, -, -, hshr, -, hshl, -⟩ := hXYN x y
  exact ⟨hshr, hshl,
    exists_next_setWithFlag (exec_shrVxVy x y s) (byte_shiftRight_one_toNat _) (flag_shiftedOutRight_toNat _),
    exists_next_setWithFlag (exec_shlVxVy x y s) (byte_shiftLeft_one_toNat _) (flag_shiftedOutLeft_toNat _)⟩

/-! ### The random draw -/

theorem exec_rndVxNn (x : Reg) (nn : Byte) (s : State) :
    exec (.rndVxNn x nn) s = .next (s.dropRnd.setReg x (s.nextRnd &&& nn)).advance := rfl

/-- Settles O25, on the two forms of the draw (log 1); the frame is that of `setReg` on the state with the draw used up. -/
theorem randomIsADrawMasked : Obligations.RandomIsADrawMasked := by
  intro x nn s
  obtain ⟨-, -, -, hXNN, -⟩ := everyRowOfTheMapDecodes
  obtain ⟨-, -, -, -, hrnd⟩ := hXNN x nn
  obtain ⟨hpc, hregs, hmem, -⟩ := onlyRegs_setReg s.dropRnd x (s.nextRnd &&& nn)
  refine ⟨hrnd, _, exec_rndVxNn x nn s, fun d ds hready => ?_, fun hfree => ?_, ?_, fun r hr => ?_, fun a => ?_⟩
  · obtain ⟨hd, hdrop⟩ := s.nextRnd_ready hready
    rw [State.setReg_advance_reg_self, hd, hdrop]
    exact ⟨rfl, rfl⟩
  · obtain ⟨hd, hdrop⟩ := s.nextRnd_free hfree
    rw [State.setReg_advance_reg_self, hd, hdrop]
    exact ⟨rfl, rfl⟩
  · rw [hpc, State.dropRnd_pc]
  · rw [hregs r (List.not_mem_cons_of_ne_of_not_mem hr List.not_mem_nil), State.dropRnd_reg]
  · rw [hmem a, State.dropRnd_readByte]

end Sys2Proof.Machine
end

section
/-! PROOF of O26 to O29: the index register and the memory transfers. The words are those of O2's rows. -/

namespace Sys2Proof.Machine

variable {s : State}

/-! ### The index register -/

theorem exec_ldINnn (nnn : BitVec 12) (s : State) :
    exec (.ldINnn nnn) s = .next { s with i := zext16 nnn }.advance := rfl

theorem exec_addIVx (x : Reg) (s : State) :
    exec (.addIVx x) s = .next { s with i := s.i + (s.reg x).setWidth 16 }.advance := rfl

theorem exec_ldFVx (x : Reg) (s : State) : exec (.ldFVx x) s = .next { s with i := s.glyphAddress x }.advance := rfl

/-- The sum of FX1E wraps in 16 bits (R201). -/
theorem word_add_byte_toNat (a : Word) (b : Byte) : (a + b.setWidth 16).toNat = (a.toNat + b.toNat) % 65536 := by
  rw [BitVec.toNat_add, BitVec.toNat_setWidth_of_le (by decide)]

/-- The digit is the low nibble (R202, R260). -/
theorem lowNibble_toNat (b : Byte) : (lowNibble b).toNat = b.toNat % 16 := BitVec.toNat_setWidth ..

/-- The glyph of a font that lies in its range (R72) is at the exact sum of R202. -/
theorem State.glyphAddress_toNat (h : s.config.wf) (x : Reg) :
    (s.glyphAddress x).toNat = s.config.fontBase.toNat + 5 * ((s.reg x).toNat % 16) := by
  have hbase : s.config.fontBase.toNat + 80 ≤ 0x200 := h
  have hdigit : ((lowNibble (s.reg x)).setWidth 16).toNat = (s.reg x).toNat % 16 := by
    rw [BitVec.toNat_setWidth_of_le (by decide), lowNibble_toNat]
  rw [State.glyphAddress, BitVec.toNat_add, BitVec.toNat_mul, hdigit, show (5 : Word).toNat = 5 from rfl]
  omega

/-- Settles O26: the three write `I` and advance. -/
theorem indexRegisterWrites : Obligations.IndexRegisterWrites := by
  obtain ⟨-, -, hNNN, -, -, -, hXF⟩ := everyRowOfTheMapDecodes
  refine ⟨fun nnn s => ?_, fun x s => ?_⟩
  · obtain ⟨-, -, hldI, -⟩ := hNNN nnn
    exact ⟨hldI, _, exec_ldINnn nnn s, zext16_toNat nnn, rfl⟩
  · obtain ⟨-, -, -, -, -, -, haddI, hldF, -⟩ := hXF x
    exact ⟨haddI, hldF, ⟨_, exec_addIVx x s, word_add_byte_toNat s.i (s.reg x), rfl⟩,
      fun hfont => ⟨_, exec_ldFVx x s, State.glyphAddress_toNat hfont x, rfl⟩⟩

/-! ### Transfers at `I` -/

/-- A transfer of the `n + 1` bytes at `I`, the last of them out of range, in the words of `Halts` (R74, R302). -/
theorem halts_access {n : Nat} (h : 0xFFF < s.i.toNat + n) (i : Instr) (ok : State) :
    Halts (s.access i s.i.toNat (n + 1) ok) s .outOfBounds (encode i) (max s.i.toNat 0x1000) := by
  have hi : s.i.toNat < 2 ^ 16 := s.i.isLt
  rw [s.access_bad (Nat.succ_ne_zero n) (show 0x1000 < s.i.toNat + (n + 1) by omega)]
  exact halts_raise s .outOfBounds _ (show max s.i.toNat 0x1000 < 2 ^ 17 by omega)

/-- The byte a store has put `k` places above its first. -/
theorem State.readByte_storeBytes_add (hm : s.memOk) {bs : List Byte} {a k : Nat} (ha : a + bs.length ≤ memSize)
    (hk : k < bs.length) : (s.storeBytes a bs).readByte (a + k) = bs.getD k 0 := by
  rw [s.readByte_storeBytes hm bs ha, if_pos (by omega), Nat.add_sub_cancel_left]

/-! ### FX33 -/

/-- The digits as numbers, hundreds first (R203). -/
theorem bcdDigits_toNat (b : Byte) :
    ((bcdDigits b).getD 0 0).toNat = b.toNat / 100 ∧ ((bcdDigits b).getD 1 0).toNat = b.toNat / 10 % 10 ∧
      ((bcdDigits b).getD 2 0).toNat = b.toNat % 10 := by
  have hb := b.isLt
  exact ⟨Nat.mod_eq_of_lt (show b.toNat / 100 < 2 ^ 8 by omega),
    Nat.mod_eq_of_lt (show b.toNat / 10 % 10 < 2 ^ 8 by omega), Nat.mod_eq_of_lt (show b.toNat % 10 < 2 ^ 8 by omega)⟩

/-- An FX33 whose bytes are in range stores the digits and advances (R203). -/
theorem exec_ldBVx_ok {x : Reg} (h : s.i.toNat + 2 ≤ 0xFFF) :
    exec (.ldBVx x) s = .next (s.storeBytes s.i.toNat (bcdDigits (s.reg x))).advance :=
  s.access_ok (.inr (show s.i.toNat + 3 ≤ 0x1000 by omega)) _

theorem exec_ldBVx_halts {x : Reg} (h : 0xFFF < s.i.toNat + 2) :
    Halts (exec (.ldBVx x) s) s .outOfBounds (layoutXNN 0xF x 0x33) (max s.i.toNat 0x1000) := by
  rw [← encode_ldBVx]
  exact halts_access h _ _

/-- Settles O27: in range the digits are the bytes stored at `I`, and no others change. -/
theorem bcdStoresThreeDigits : Obligations.BcdStoresThreeDigits := by
  intro x s
  obtain ⟨-, -, -, -, -, -, hXF⟩ := everyRowOfTheMapDecodes
  obtain ⟨-, -, -, -, -, -, -, -, hldB, -⟩ := hXF x
  refine ⟨hldB, fun hin => ⟨_, exec_ldBVx_ok hin, fun hm => ?_, fun a ha => ?_, rfl⟩, exec_ldBVx_halts⟩
  · obtain ⟨hhundreds, htens, hones⟩ := bcdDigits_toNat (s.reg x)
    have hread (k : Nat) (hk : k < 3) :
        ((s.storeBytes s.i.toNat (bcdDigits (s.reg x))).readByte (s.i.toNat + k)).toNat =
          ((bcdDigits (s.reg x)).getD k 0).toNat :=
      congrArg BitVec.toNat (State.readByte_storeBytes_add hm (show s.i.toNat + 3 ≤ 0x1000 by omega) hk)
    exact ⟨(hread 0 (by decide)).trans hhundreds, (hread 1 (by decide)).trans htens, (hread 2 (by decide)).trans hones⟩
  · exact s.readByte_storeBytes_other (bcdDigits (s.reg x)) ha

/-! ### FX55 -/

theorem exec_ldMemVx_halts {x : Reg} (h : 0xFFF < s.i.toNat + x.val) :
    Halts (exec (.ldMemVx x) s) s .outOfBounds (layoutXNN 0xF x 0x55) (max s.i.toNat 0x1000) := by
  rw [← encode_ldMemVx]
  exact halts_access h _ _

/-- Settles O28: in range the registers are the bytes stored at `I`, and no others change. -/
theorem storesRegistersAtI : Obligations.StoresRegistersAtI := by
  intro x s
  obtain ⟨-, -, -, -, -, -, hXF⟩ := everyRowOfTheMapDecodes
  obtain ⟨-, -, -, -, -, -, -, -, -, hldMem, -⟩ := hXF x
  refine ⟨hldMem, fun hin => ⟨_, exec_ldMemVx_ok hin, fun hm k hk => ?_, fun a ha => ?_, rfl⟩, exec_ldMemVx_halts⟩
  · exact State.readByte_storeBytes_regsUpTo hm hin hk
  · have hlen := s.regsUpTo_length x
    exact s.readByte_storeBytes_other (s.regsUpTo x) (by omega)

/-! ### FX65 -/

/-- An FX65 whose bytes are in range loads them and advances (R205). -/
theorem exec_ldVxMem_ok {x : Reg} (h : s.i.toNat + x.val ≤ 0xFFF) :
    exec (.ldVxMem x) s = .next { s with v := s.loadRegs x }.advance :=
  s.access_ok (.inr (show s.i.toNat + (x.val + 1) ≤ 0x1000 by omega)) _

theorem exec_ldVxMem_halts {x : Reg} (h : 0xFFF < s.i.toNat + x.val) :
    Halts (exec (.ldVxMem x) s) s .outOfBounds (layoutXNN 0xF x 0x65) (max s.i.toNat 0x1000) := by
  rw [← encode_ldVxMem]
  exact halts_access h _ _

/-- Settles O29: in range the new register file is `loadRegs`. -/
theorem loadsRegistersFromI : Obligations.LoadsRegistersFromI := by
  intro x s
  obtain ⟨-, -, -, -, -, -, hXF⟩ := everyRowOfTheMapDecodes
  obtain ⟨-, -, -, -, -, -, -, -, -, -, hld⟩ := hXF x
  exact ⟨hld, fun hin => ⟨_, exec_ldVxMem_ok hin, fun k => s.loadRegs_getElem x k, fun _ => rfl, rfl⟩,
    exec_ldVxMem_halts⟩

end Sys2Proof.Machine
end

section
/-! PROOF of O32 to O35: the display. The words are those of O2's rows. -/

namespace Sys2Proof.Machine

variable {s : State} {x y : Reg} {n : Nat}

/-! ### 00E0 -/

theorem exec_cls (s : State) : exec .cls s = .next { s with fb := Framebuffer.blank, drew := true }.advance := rfl

/-- Settles O32: the screen is the blank one. -/
theorem clearScreenTurnsEveryPixelOff : Obligations.ClearScreenTurnsEveryPixelOff := by
  obtain ⟨hcls, -⟩ := everyRowOfTheMapDecodes
  exact ⟨hcls, fun s => ⟨_, exec_cls s, Framebuffer.pixel_blank, fun _ => rfl, rfl⟩⟩

/-! ### What DXYN draws (R231 to R234) -/

/-- The sprite bit of a DXYN at `s` that falls on the cell in row `py`, column `px`. -/
def State.drawBit (s : State) (x y : Reg) (n : Nat) (py : Fin 32) (px : Fin 64) : Bool :=
  spriteBit s (s.reg x).toNat (s.reg y).toNat n py px

/-- The cells a DXYN at `s` toggles, in order. -/
def State.drawnCells (s : State) (x y : Reg) (n : Nat) : List Cell :=
  spriteCells (s.reg x).toNat (s.reg y).toNat 0 (s.readBytes s.i.toNat n)

theorem State.mem_drawnCells (s : State) (x y : Reg) (hn : n ≤ 15) (py : Fin 32) (px : Fin 64) :
    (py, px) ∈ s.drawnCells x y n ↔ s.drawBit x y n py px = true := by
  rw [State.drawnCells, State.drawBit, ← decide_mem_spriteCells s _ _ n hn, decide_eq_true_iff]

/-- No two sprite bits fall on one cell. -/
theorem State.drawnCells_nodup (s : State) (x y : Reg) (hn : n ≤ 15) : (s.drawnCells x y n).Nodup :=
  spriteCells_nodup _ _ _ _ (by rw [State.readBytes_length]; omega)

/-- The canvas a DXYN at `s` ends with. -/
def State.drawnCanvas (s : State) (x y : Reg) (n : Nat) : Canvas :=
  Canvas.drawRows (s.reg x).toNat (s.reg y).toNat 0 (s.readBytes s.i.toNat n) { fb := s.fb, collision := false }

theorem State.drawnCanvas_eq (s : State) (x y : Reg) (n : Nat) :
    s.drawnCanvas x y n = (s.drawnCells x y n).foldl Canvas.plotCell { fb := s.fb, collision := false } :=
  Canvas.drawRows_eq ..

/-- A draw toggles the cells a sprite bit of 1 falls on. -/
theorem State.drawnCanvas_pixel (s : State) (x y : Reg) (hn : n ≤ 15) (py : Fin 32) (px : Fin 64) :
    (s.drawnCanvas x y n).fb.pixel py px = (s.fb.pixel py px ^^ s.drawBit x y n py px) := by
  rw [s.drawnCanvas_eq, Canvas.pixel_foldl_plotCell (s.drawnCells_nodup x y hn)]
  simp [s.mem_drawnCells x y hn]

/-- A draw collides when a sprite bit of 1 falls on a cell that is on. -/
theorem State.drawnCanvas_collision_iff (s : State) (x y : Reg) (hn : n ≤ 15) :
    (s.drawnCanvas x y n).collision = true ↔ ∃ py px, s.drawBit x y n py px = true ∧ s.fb.pixel py px = true := by
  rw [s.drawnCanvas_eq, Canvas.collision_foldl_plotCell (s.drawnCells_nodup x y hn)]
  simp [Prod.exists, s.mem_drawnCells x y hn]

/-- The state a DXYN at `s` completes in. -/
def State.afterDraw (s : State) (x y : Reg) (n : Nat) : State :=
  ({ s with fb := (s.drawnCanvas x y n).fb, drew := true }.setReg VF (flag (s.drawnCanvas x y n).collision)).advance

theorem State.afterDraw_fb (s : State) (x y : Reg) (n : Nat) : (s.afterDraw x y n).fb = (s.drawnCanvas x y n).fb := rfl

theorem State.afterDraw_pixel (s : State) (x y : Reg) (hn : n ≤ 15) (py : Fin 32) (px : Fin 64) :
    (s.afterDraw x y n).fb.pixel py px = (s.fb.pixel py px ^^ s.drawBit x y n py px) := by
  rw [s.afterDraw_fb, s.drawnCanvas_pixel x y hn]

/-- VF holds the collision, whichever registers the coordinates come from. -/
theorem State.afterDraw_vf (s : State) (x y : Reg) (n : Nat) :
    (s.afterDraw x y n).reg VF = flag (s.drawnCanvas x y n).collision :=
  State.setReg_advance_reg_self _ VF _

theorem State.afterDraw_vf_eq_one (hn : n ≤ 15) (h : ∃ py px, s.drawBit x y n py px = true ∧ s.fb.pixel py px = true) :
    (s.afterDraw x y n).reg VF = 1 := by
  rw [s.afterDraw_vf, (s.drawnCanvas_collision_iff x y hn).2 h]; rfl

theorem State.afterDraw_vf_eq_zero (hn : n ≤ 15)
    (h : ∀ py px, s.drawBit x y n py px = true → s.fb.pixel py px = false) : (s.afterDraw x y n).reg VF = 0 := by
  have hno : (s.drawnCanvas x y n).collision = false := by
    rw [← Bool.not_eq_true, s.drawnCanvas_collision_iff x y hn]
    rintro ⟨py, px, hbit, hon⟩
    exact Bool.false_ne_true ((h py px hbit).symm.trans hon)
  rw [s.afterDraw_vf, hno]; rfl

theorem State.afterDraw_reg (s : State) (x y : Reg) (n : Nat) {r : Reg} (hr : r ≠ VF) :
    (s.afterDraw x y n).reg r = s.reg r :=
  setReg_advance_reg _ _ hr

/-! ### When DXYN completes (R74, R236) -/

/-- Rows in range, in the words of the address check. -/
theorem rows_inRange {n : BitVec 4} (h : n = 0 ∨ s.i.toNat + n.toNat - 1 ≤ 0xFFF) :
    n.toNat = 0 ∨ s.i.toNat + n.toNat ≤ memSize := by
  rcases h with rfl | h
  · exact .inl rfl
  · exact .inr (show s.i.toNat + n.toNat ≤ 0x1000 by omega)

theorem exec_drwVxVyN_ok (h : n = 0 ∨ s.i.toNat + n ≤ memSize) :
    exec (.drwVxVyN x y n) s = .next (s.afterDraw x y n) :=
  s.access_ok h _

theorem exec_drwVxVyN_noRows (x y : Reg) (s : State) :
    exec (.drwVxVyN x y 0) s = .next ({ s with drew := true }.setReg VF 0).advance :=
  exec_drwVxVyN_ok (.inl rfl)

theorem exec_drwVxVyN_halts (hn : n ≠ 0) (h : 0xFFF < s.i.toNat + n - 1) :
    Halts (exec (.drwVxVyN x y n) s) s .outOfBounds (encode (.drwVxVyN x y n)) (max s.i.toNat 0x1000) := by
  cases n with
  | zero => exact absurd rfl hn
  | succ n => exact halts_access h _ _

/-- Settles O33: a cell goes from on to off where it is on and a sprite bit of 1 falls on it. -/
theorem drawTogglesTheSpriteBits : Obligations.DrawTogglesTheSpriteBits := by
  intro x y n s
  obtain ⟨-, -, -, -, -, hXYN, -⟩ := everyRowOfTheMapDecodes
  have hn : n.toNat ≤ 15 := Nat.le_of_lt_succ n.isLt
  have hpix := s.afterDraw_pixel x y hn
  refine ⟨hXYN x y n, fun hin => ⟨_, exec_drwVxVyN_ok (rows_inRange hin), hpix, ?_, ?_,
    fun r hr => s.afterDraw_reg x y _ hr, fun _ => rfl, rfl⟩, fun hne hout => ?_⟩
  · rintro ⟨py, px, hon, hoff⟩
    rw [hpix, hon, Bool.true_xor, Bool.not_eq_false'] at hoff
    exact State.afterDraw_vf_eq_one hn ⟨py, px, hoff, hon⟩
  · intro hstay
    refine State.afterDraw_vf_eq_zero hn fun py px hbit => ?_
    cases hon : s.fb.pixel py px with
    | false => rfl
    | true =>
      have hkept := hstay py px hon
      rw [hpix, hon, hbit] at hkept
      exact absurd hkept (by decide)
  · rw [← encode_drwVxVyN]
    exact exec_drwVxVyN_halts (fun h0 => hne (BitVec.eq_of_toNat_eq h0)) hout

/-- Settles O34: with no rows no memory is read, no cell toggled, and there is no collision. -/
theorem drawOfNoRowsChangesNoPixel : Obligations.DrawOfNoRowsChangesNoPixel :=
  fun x y s => ⟨_, exec_drwVxVyN_noRows x y s, State.setReg_advance_reg_self _ VF 0,
    fun _ hr => setReg_advance_reg _ 0 hr, fun _ => rfl, rfl⟩

/-! ### The same draw twice (R235) -/

/-- A draw leaves the sprite, so that with the coordinates kept the same bits fall on the same cells. -/
theorem State.drawBit_afterDraw (hx : (s.afterDraw x y n).reg x = s.reg x) (hy : (s.afterDraw x y n).reg y = s.reg y) :
    (s.afterDraw x y n).drawBit x y n = s.drawBit x y n := by
  funext py px
  rw [State.drawBit, hx, hy]; rfl

/-- Settles O35: the second draw flips back what the first flipped, and collides where the first turned a cell on. -/
theorem drawTwiceRestoresTheScreen : Obligations.DrawTwiceRestoresTheScreen := by
  intro x y n s t hin hdraw hx hy
  have hn : n.toNat ≤ 15 := Nat.le_of_lt_succ n.isLt
  have hrange := rows_inRange hin
  cases (exec_drwVxVyN_ok hrange).symm.trans hdraw
  have hpix := s.afterDraw_pixel x y hn
  have hbits := State.drawBit_afterDraw hx hy
  refine ⟨_, exec_drwVxVyN_ok hrange, Framebuffer.ext fun py px => ?_, ?_, fun hall => ?_⟩
  · rw [State.afterDraw_pixel _ x y hn, hbits, hpix, Bool.xor_assoc, Bool.xor_self, Bool.xor_false]
  · rintro ⟨py, px, hoff, hbit⟩
    refine State.afterDraw_vf_eq_one hn ⟨py, px, by rw [hbits]; exact hbit, ?_⟩
    rw [hpix, hoff, Bool.false_xor]; exact hbit
  · refine State.afterDraw_vf_eq_zero hn fun py px hbit => ?_
    rw [hbits] at hbit
    rw [hpix, hbit, hall py px hbit, Bool.true_xor, Bool.not_true]

end Sys2Proof.Machine
end

section
/-! PROOF of O37 to O43: the keypad and the timers. The words are those of O2's rows. -/

namespace Sys2Proof.Machine

variable {s t : State}

/-! ### No instruction but FX18 looks at `ST` (R276) -/

/-- The address check does not look at `ST`. -/
theorem State.access_setSt {i : Instr} {a n : Nat} {ok : State} (h : s.access i a n ok = .next t) (b : Byte) :
    State.access { s with st := b } i a n { ok with st := b } = .next { t with st := b } := by
  rcases s.access_cases h with ⟨hin, rfl⟩ | ⟨hn, hout, rfl⟩
  · exact State.access_ok _ hin _
  · exact State.access_bad _ hn hout _

theorem State.dropRnd_setSt (s : State) (b : Byte) : State.dropRnd { s with st := b } = { s.dropRnd with st := b } := by
  rw [State.dropRnd, State.dropRnd]
  cases s.rndInputs <;> rfl

theorem exec_call_setSt {nnn : BitVec 12} (h : exec (.call nnn) s = .next t) (b : Byte) :
    exec (.call nnn) { s with st := b } = .next { t with st := b } := by
  by_cases hroom : s.sp.val < 16
  · cases (exec_call_ok nnn hroom).symm.trans h
    exact exec_call_ok (s := { s with st := b }) nnn hroom
  · have hfull : s.sp.val = 16 := by omega
    cases (exec_call_full nnn hfull).symm.trans h
    exact exec_call_full (s := { s with st := b }) nnn hfull

theorem exec_ret_setSt (h : exec .ret s = .next t) (b : Byte) :
    exec .ret { s with st := b } = .next { t with st := b } := by
  by_cases hentry : 0 < s.sp.val
  · cases (exec_ret_ok hentry).symm.trans h
    exact exec_ret_ok (s := { s with st := b }) hentry
  · have hempty : s.sp.val = 0 := by omega
    cases (exec_ret_empty hempty).symm.trans h
    exact exec_ret_empty (s := { s with st := b }) hempty

theorem exec_drwVxVyN_setSt {x y : Reg} {n : Nat} (h : exec (.drwVxVyN x y n) s = .next t) (b : Byte) :
    exec (.drwVxVyN x y n) { s with st := b } = .next { t with st := b } := by
  have hread := State.readBytes_congr (s := s) (t := { s with st := b }) rfl rfl s.i.toNat n
  rw [exec, execDrwVxVyN, hread]
  exact State.access_setSt h b

/-- Every instruction but FX18 passes `ST` on and does the rest as before. -/
theorem exec_setSt {i : Instr} (hi : ∀ x, i ≠ .ldStVx x) (h : exec i s = .next t) (b : Byte) :
    exec i { s with st := b } = .next { t with st := b } := by
  cases i with
  | ldStVx x => exact absurd rfl (hi x)
  | call nnn => exact exec_call_setSt h b
  | ret => exact exec_ret_setSt h b
  | drwVxVyN x y n => exact exec_drwVxVyN_setSt h b
  | ldBVx x | ldMemVx x | ldVxMem x => exact State.access_setSt h b
  | rndVxNn x nn =>
    cases h
    rw [exec, execRndVxNn, State.dropRnd_setSt]
    rfl
  | _ => cases h; rfl

/-- Settles O43: FX18 writes `ST` over, and every other instruction passes it on. -/
theorem soundTimerReadByNoInstruction : Obligations.SoundTimerReadByNoInstruction := by
  intro i b s t h
  cases i with
  | ldStVx x => cases h; rfl
  | _ => exact exec_setSt (by simp) h b

/-! ### The keypad (R260 to R267) -/

/-- The key is the one the low nibble of `V[X]` numbers (R260). -/
theorem State.keyPressed_eq (s : State) (x : Reg) : s.keyPressed x = s.keys.getLsbD ((s.reg x).toNat % 16) := by
  rw [State.keyPressed, lowNibble_toNat]

theorem exec_skpVx (x : Reg) (s : State) : exec (.skpVx x) s = .next (s.skipIf (s.keyPressed x)) := rfl

theorem exec_sknpVx (x : Reg) (s : State) : exec (.sknpVx x) s = .next (s.skipIf (!s.keyPressed x)) := rfl

theorem exec_ldVxK (x : Reg) (s : State) : exec (.ldVxK x) s = .next { s with waitX := x, status := .waitingForKey } :=
  rfl

/-- Settles O37: EX9E skips on the key's bit, EXA1 on its negation. -/
theorem skipsOnAKey : Obligations.SkipsOnAKey := by
  intro x s
  obtain ⟨-, -, -, -, -, -, hXF⟩ := everyRowOfTheMapDecodes
  obtain ⟨hskp, hsknp, -⟩ := hXF x
  refine ⟨hskp, hsknp, ?_, ?_⟩
  · rw [exec_skpVx, s.keyPressed_eq, State.skipIf, State.jump]
  · rw [exec_sknpVx, s.keyPressed_eq, State.skipIf, State.jump]
    simp only [Bool.not_eq_true']

/-- Settles O38: the answer of FX0A is the latch of X and the suspension, whatever `KEYS` holds. -/
theorem waitForKeySuspends : Obligations.WaitForKeySuspends := by
  intro x s
  obtain ⟨-, -, -, -, -, -, hXF⟩ := everyRowOfTheMapDecodes
  obtain ⟨-, -, -, hwait, -⟩ := hXF x
  exact ⟨hwait, exec_ldVxK x s⟩

theorem applyEvent_keyEvent (k : BitVec 4) (s : State) : applyEvent (.keyEvent k) s = .next (keyEvent k s) := rfl

/-- Settles O39, on what a key event does in `WaitingForKey` and in any other status. -/
theorem keyEventEndsTheWait : Obligations.KeyEventEndsTheWait := by
  intro k s
  rw [applyEvent_keyEvent]
  refine ⟨fun hwait => ?_, fun hother => ?_⟩
  · rw [keyEvent_waiting k hwait]
    refine ⟨_, rfl, ?_, fun r hr => setReg_advance_reg s _ hr, fun _ => rfl, rfl⟩
    have hkey := s.setReg_advance_reg_self s.waitX (k.setWidth 8)
    exact (congrArg BitVec.toNat hkey).trans (BitVec.toNat_setWidth_of_le (by decide))
  · rw [keyEvent_notWaiting k (by rcases hother with h | h <;> simp [h])]

/-! ### The timers (R270 to R282) -/

theorem exec_ldVxDt (x : Reg) (s : State) : exec (.ldVxDt x) s = .next (s.setReg x s.dt).advance := rfl

theorem exec_ldDtVx (x : Reg) (s : State) : exec (.ldDtVx x) s = .next { s with dt := s.reg x }.advance := rfl

theorem exec_ldStVx (x : Reg) (s : State) : exec (.ldStVx x) s = .next { s with st := s.reg x }.advance := rfl

/-- Settles O40: FX07 ends in `setReg`, FX15 and FX18 in the update of their timer. -/
theorem timerTransfers : Obligations.TimerTransfers := by
  intro x s
  obtain ⟨-, -, -, -, -, -, hXF⟩ := everyRowOfTheMapDecodes
  obtain ⟨-, -, hldDt, -, hsetDt, hsetSt, -⟩ := hXF x
  refine ⟨hldDt, hsetDt, hsetSt,
    ⟨_, exec_ldVxDt x s, s.setReg_advance_reg_self x s.dt, onlyRegs_setReg s x s.dt⟩,
    exec_ldDtVx x s, exec_ldStVx x s, fun t h => ?_⟩
  cases (exec_ldStVx x s).symm.trans h
  rw [State.soundActive, Bool.eq_iff_iff, bne_iff_ne, decide_eq_true_iff]
  rfl

theorem applyEvent_tick (s : State) : applyEvent .tick s = .next (tickEvent s) := rfl

theorem tickEvent_dt_toNat (s : State) : (tickEvent s).dt.toNat = s.dt.toNat - 1 := countDown_toNat s.dt

theorem tickEvent_st_toNat (s : State) : (tickEvent s).st.toNat = s.st.toNat - 1 := countDown_toNat s.st

/-- Settles O41: one less, in a subtraction that stops at 0, is what R280 says by cases. -/
theorem tickCountsDown : Obligations.TickCountsDown := by
  refine fun s => ⟨_, applyEvent_tick s, ?_, ?_, rfl⟩
  · rw [tickEvent_dt_toNat]; split <;> omega
  · rw [tickEvent_st_toNat]; split <;> omega

/-- `n` ticks in a row are `n` uses of `tickEvent`. -/
theorem applyEvents_ticks (n : Nat) (s : State) : applyEvents (List.replicate n .tick) s = .next (tickEvent^[n] s) := by
  induction n generalizing s with
  | zero => rfl
  | succ n ih => exact ih (tickEvent s)

/-- A timer that each tick takes 1 from is lower by `n` after `n` ticks, down to 0 (R282). -/
theorem ticks_toNat {timer : State → Byte} (htick : ∀ s, (timer (tickEvent s)).toNat = (timer s).toNat - 1)
    (n : Nat) (s : State) : (timer (tickEvent^[n] s)).toNat = (timer s).toNat - n := by
  induction n generalizing s with
  | zero => rfl
  | succ n ih => rw [Function.iterate_succ_apply, ih, htick, Nat.sub_sub, Nat.add_comm 1]

theorem ticks_dt_toNat (n : Nat) (s : State) : (tickEvent^[n] s).dt.toNat = s.dt.toNat - n :=
  ticks_toNat tickEvent_dt_toNat n s

theorem ticks_st_toNat (n : Nat) (s : State) : (tickEvent^[n] s).st.toNat = s.st.toNat - n :=
  ticks_toNat tickEvent_st_toNat n s

/-- Settles O42: FX15 puts `V[X]` into `DT`, the ticks take `n` from it, and FX07 reads it. -/
theorem timersFallByTheTicks : Obligations.TimersFallByTheTicks := by
  refine ⟨fun n s => ⟨_, applyEvents_ticks n s, ticks_dt_toNat n s, ticks_st_toNat n s⟩, fun n x y s => ?_⟩
  refine ⟨_, _, _, exec_ldDtVx x s, applyEvents_ticks n _, exec_ldVxDt y _, ?_⟩
  rw [State.setReg_advance_reg_self]
  exact ticks_dt_toNat n _

end Sys2Proof.Machine
end

section
/-! PROOF of O9, O11 and O13: an illegal word, which steps answer a next state, and what can follow `Halted`. -/

namespace Sys2Proof.Machine

variable {s t u : State}

/-! ### Every instruction runs (R311), and every event but a late `LoadRom` (R358) -/

/-- An access with a byte out of range raises, which is a next state too (R74). -/
theorem State.exists_access_next (s : State) (i : Instr) (a n : Nat) (ok : State) : ∃ t, s.access i a n ok = .next t := by
  by_cases hr : n = 0 ∨ a + n ≤ memSize
  · exact ⟨_, s.access_ok hr ok⟩
  · exact ⟨_, s.access_bad (by omega) (by omega) ok⟩

/-- Each error of an instruction is a next state: the two of the stack, and the one of an access (R300). -/
theorem exists_exec_next (i : Instr) (s : State) : ∃ t, exec i s = .next t := by
  cases i with
  | call nnn =>
    by_cases hroom : s.sp.val < 16
    · exact ⟨_, exec_call_ok nnn hroom⟩
    · exact ⟨_, exec_call_full nnn (by omega)⟩
  | ret =>
    by_cases hentry : 0 < s.sp.val
    · exact ⟨_, exec_ret_ok hentry⟩
    · exact ⟨_, exec_ret_empty (by omega)⟩
  | drwVxVyN x y n => exact s.exists_access_next ..
  | ldBVx x => exact s.exists_access_next ..
  | ldMemVx x => exact s.exists_access_next ..
  | ldVxMem x => exact s.exists_access_next ..
  | _ => exact ⟨_, rfl⟩

theorem exists_stepEvent_next (s : State) : ∃ t, stepEvent s = .next t := by
  rcases stepEvent_cases s with ⟨_, he⟩ | ⟨_, _, he⟩ | ⟨_, _, _, he⟩ | ⟨i, _, he⟩
  · exact ⟨_, he⟩
  · exact ⟨_, he⟩
  · exact ⟨_, he⟩
  · rw [he]
    exact exists_exec_next i s.beginStep

/-- In the boot window a `LoadRom` copies the image or halts on its length (R356, R357). -/
theorem exists_loadRomEvent_next (bytes : List Byte) (h : s.bootOpen = true) : ∃ t, loadRomEvent bytes s = .next t := by
  rw [loadRomEvent, if_pos h]
  split
  · exact ⟨_, rfl⟩
  · exact ⟨_, rfl⟩

/-- Outside the boot window a `LoadRom` is refused (R358). -/
theorem loadRomEvent_refused (bytes : List Byte) (h : s.bootOpen = false) :
    loadRomEvent bytes s = .refused .loadRomOutsideBootWindow := by
  rw [loadRomEvent, if_neg (by simp [h])]

/-- An event answers a next state, or is a `LoadRom` outside the boot window, which is refused (R358). -/
theorem applyEvent_next_or_refused (e : Event) (s : State) :
    (∃ t, applyEvent e s = .next t) ∨
    (applyEvent e s = .refused .loadRomOutsideBootWindow ∧ s.bootOpen = false ∧ ∃ bytes, e = .loadRom bytes) := by
  cases e with
  | loadRom bytes =>
    cases hb : s.bootOpen with
    | true => exact .inl (exists_loadRomEvent_next bytes hb)
    | false => exact .inr ⟨loadRomEvent_refused bytes hb, rfl, bytes, rfl⟩
  | step => exact .inl (exists_stepEvent_next s)
  | _ => exact .inl ⟨_, rfl⟩

/-- Settles O11: a step is a `Step`, which always answers, or the oldest waiting event, taken with the same boot window. -/
theorem everyInstructionRuns : Obligations.EveryInstructionRuns := by
  refine ⟨exists_exec_next, fun s => ?_⟩
  cases he : s.events with
  | nil =>
    rw [step_of_events_nil he]
    exact .inl (exists_stepEvent_next s)
  | cons e es =>
    rw [step_of_events_cons he]
    rcases applyEvent_next_or_refused e { s with events := es } with hnext | ⟨href, hb, bytes, rfl⟩
    · exact .inl hnext
    · exact .inr ⟨href, hb, bytes, es, rfl⟩

/-! ### After a fatal error (R308, R309) -/

/-- Only the timers, `DREW` and the port `KEYS` may differ: what R309 lets change in `Halted`. -/
def OnlyTimersDrewKeys (s t : State) : Prop := t = { s with dt := t.dt, st := t.st, drew := t.drew, keys := t.keys }

theorem OnlyTimersDrewKeys.status (h : OnlyTimersDrewKeys s t) : t.status = s.status := by rw [h]

theorem OnlyTimersDrewKeys.bootOpen (h : OnlyTimersDrewKeys s t) : t.bootOpen = s.bootOpen := by rw [h]

theorem OnlyTimersDrewKeys.trans (h : OnlyTimersDrewKeys s t) (h' : OnlyTimersDrewKeys t u) : OnlyTimersDrewKeys s u := by
  unfold OnlyTimersDrewKeys at h h' ⊢
  rw [h] at h'
  exact h'

/-- With the boot window closed, a `Tick` counts the timers down and does nothing else (R280). -/
theorem tickEvent_of_bootOpen_false (h : s.bootOpen = false) :
    tickEvent s = { s with dt := countDown s.dt, st := countDown s.st } := by
  simp only [tickEvent, h]

/-- One event in `Halted`: a `Step` clears `DREW`, a `Tick` counts down, a key event does nothing, the port may change. -/
theorem applyEvent_halted {e : Event} (hs : s.status = .halted) (hb : s.bootOpen = false)
    (he : e ≠ .reset ∧ ∀ bytes, e ≠ .loadRom bytes) : ∃ t, applyEvent e s = .next t ∧ OnlyTimersDrewKeys s t := by
  cases e with
  | reset => exact absurd rfl he.1
  | loadRom bytes => exact absurd rfl (he.2 bytes)
  | step =>
    refine ⟨_, stepEvent_notRunning (by simp [hs]), ?_⟩
    rw [State.beginStep_of_bootOpen_false hb]
    rfl
  | tick =>
    refine ⟨_, applyEvent_tick s, ?_⟩
    rw [tickEvent_of_bootOpen_false hb]
    rfl
  | keyEvent k =>
    refine ⟨_, applyEvent_keyEvent k s, ?_⟩
    rw [keyEvent_notWaiting k (by simp [hs])]
    rfl
  | setKeys keys => exact ⟨_, rfl, rfl⟩

theorem applyEvents_cons_of_next {e : Event} (es : List Event) (h : applyEvent e s = .next t) :
    applyEvents (e :: es) s = applyEvents es t := by
  simp only [applyEvents, h]

/-- Settles O13, by induction on the events: each leaves `Halted` and the closed boot window, so the next finds them. -/
theorem haltedIsTerminal : Obligations.HaltedIsTerminal := by
  intro es
  induction es with
  | nil => exact fun s _ _ _ => ⟨s, rfl, rfl⟩
  | cons e es ih =>
    intro s hs hb hes
    obtain ⟨he, hrest⟩ := List.forall_mem_cons.mp hes
    obtain ⟨t, hfirst, hst⟩ := applyEvent_halted hs hb he
    obtain ⟨u, hlater, htu⟩ := ih t (hst.status.trans hs) (hst.bootOpen.trans hb) hrest
    exact ⟨u, (applyEvents_cons_of_next es hfirst).trans hlater, hst.trans htu⟩

/-! ### An illegal word (R106, R301) -/

/-- Settles O9: the decoder rejects the word, and the raise at `beginStep` is one at the state with the boot window
closed, since a raise writes `DREW`. -/
theorem illegalWordHalts : Obligations.IllegalWordHalts := by
  rintro s op hs hpc rfl hno
  rcases decodeWord_total s.fetchedWord with hbad | ⟨i, hi⟩
  · rw [stepEvent_running hs, cycle_illegal (s := s.beginStep) hpc hbad]
    exact halts_raise { s with bootOpen := false } .unknownInstruction s.fetchedWord (by decide)
  · exact absurd hi (hno i)

end Sys2Proof.Machine
end

section
/-! PROOF of O45, O46, O47, O56 and O58: `LoadRom`, the boot sequence, the first step with nothing loaded, quiet states. -/

namespace Sys2Proof.Machine

variable {s : State} {bytes : List Byte}

/-! ### `LoadRom` in the boot window (R356, R357) -/

/-- The state an image leaves: its bytes from 0x200 on, and the boot window closed (R355, R356). -/
def State.loadImage (s : State) (bytes : List Byte) : State :=
  { s.storeBytes romBase bytes with bootOpen := false }

/-- `LoadRom` of an image that fits (R356). -/
theorem applyEvent_loadRom_fits (hb : s.bootOpen = true) (hlen : bytes.length ≤ 3584) :
    applyEvent (.loadRom bytes) s = .next (s.loadImage bytes) :=
  (if_pos hb).trans (if_pos hlen)

/-- `LoadRom` of an image that does not fit (R357). -/
theorem applyEvent_loadRom_tooLarge (hb : s.bootOpen = true) (hlen : 3584 < bytes.length) :
    applyEvent (.loadRom bytes) s = .next { s with
      status := .halted
      err := { kind := .romTooLarge, pc := 0x200, opcode := 0, addr := 0 }
      bootOpen := false } :=
  (if_pos hb).trans (if_neg hlen.not_ge)

/-- An image of at most 3584 bytes ends inside memory (R9). -/
theorem State.loadImage_readByte_image (hm : s.memOk) (hlen : bytes.length ≤ 3584) {k : Nat} (hk : k < bytes.length) :
    (s.loadImage bytes).readByte (0x200 + k) = bytes.getD k 0 :=
  State.readByte_storeBytes_add hm (show 0x200 + bytes.length ≤ 0x1000 by omega) hk

theorem State.loadImage_readByte_outside {a : Nat} (ha : ¬ (0x200 ≤ a ∧ a < 0x200 + bytes.length)) :
    (s.loadImage bytes).readByte a = s.readByte a :=
  s.readByte_storeBytes_other bytes ha

/-- Settles O45: the next state is `loadImage`, which writes memory and the boot window only. -/
theorem loadRomCopiesTheImage : Obligations.LoadRomCopiesTheImage := by
  intro bytes s hm hb hlen
  refine ⟨s.loadImage bytes, applyEvent_loadRom_fits hb hlen, fun k hk => ?_, fun a ha => ?_, rfl⟩
  · exact State.loadImage_readByte_image hm hlen hk
  · exact State.loadImage_readByte_outside ha

/-- Settles O46: the two ways `LoadRom` does not copy, an image too long and a closed window. -/
theorem loadRomFailsOrIsRefused : Obligations.LoadRomFailsOrIsRefused := by
  intro bytes s
  refine ⟨fun hb hlen => ?_, loadRomEvent_refused bytes⟩
  exact ⟨_, applyEvent_loadRom_tooLarge hb hlen, rfl, rfl, rfl, rfl, rfl, rfl⟩

/-! ### From `Reset` on (R351, R355) -/

/-- Above the range R72 gives the font, memory is 0 after reset. -/
theorem State.afterReset_readByte_above (hc : s.config.wf) {a : Nat} (ha : 0x200 ≤ a) : s.afterReset.readByte a = 0 :=
  resetByte_outside s.config (.inr (hc.trans ha))

/-- Settles O58: `Reset` leaves canonical memory and an open window, so the image is copied; the copy closes the window. -/
theorem resetThenLoadRomBoots : Obligations.ResetThenLoadRomBoots := by
  intro bytes s hlen
  refine ⟨s.afterReset, s.afterReset.loadImage bytes, rfl, rfl, applyEvent_loadRom_fits rfl hlen, rfl, rfl,
    fun k hk => ?_, fun hc a ha _ => ?_, fun more => loadRomEvent_refused more rfl⟩
  · exact State.loadImage_readByte_image s.afterReset_memOk hlen hk
  · calc (s.afterReset.loadImage bytes).readByte a
      _ = s.afterReset.readByte a := State.loadImage_readByte_outside (by omega)
      _ = 0 := State.afterReset_readByte_above hc (by omega)

/-- Settles O47: no event waits, so the step is a `Step`, and the word 0x0000 it fetches is illegal (R107). -/
theorem nothingLoadedHaltsAtOnce : Obligations.NothingLoadedHaltsAtOnce := by
  have hillegal : IllegalWord 0x0000 := .inl (by decide)
  have hfetch : (0x0000 : Word) = State.reset.readByte 0x200 ++ State.reset.readByte 0x201 := by decide
  exact illegalWordHalts State.reset 0x0000 rfl (by decide) hfetch (decodeWord_ne_ok_of_illegalWord hillegal)

/-! ### Quiet states (R371) -/

/-- With `DREW` 0 and the boot window closed, beginning a `Step` changes nothing (R131, R355). -/
theorem State.beginStep_eq_self (hd : s.drew = false) (hb : s.bootOpen = false) : s.beginStep = s := by
  rw [State.beginStep_of_bootOpen_false hb, ← hd]

/-- A jump to where `PC` is changes nothing. -/
theorem exec_jp_self {nnn : BitVec 12} (h : s.pc.toNat = nnn.toNat) : exec (.jp nnn) s = .next s := by
  have htarget : zext16 nnn = s.pc := BitVec.eq_of_toNat_eq ((zext16_toNat nnn).trans h.symm)
  rw [exec_jp, htarget, State.jump]

/-- Settles O56: outside `Running` a `Step` only begins, and the jump comes back to `PC`. -/
theorem quietStates : Obligations.QuietStates := by
  intro s hd hb hcase
  have hbegin : s.beginStep = s := State.beginStep_eq_self hd hb
  unfold State.quiet
  rcases hcase with hs | hs | ⟨nnn, hexec, hpc⟩
  · rw [stepEvent_notRunning (by simp [hs]), hbegin]
  · rw [stepEvent_notRunning (by simp [hs]), hbegin]
  · rw [stepEvent_exec hexec, hbegin, exec_jp_self hpc]

end Sys2Proof.Machine
end
